-- ==== Sys2Proof/Word.lean ====
section
/-! DEFINITION. The three widths of the core: a 64-bit register value (10 R21), a 3-bit digit
(00 R9, DIGIT_WIDTH) and the 8-bit byte in which the model keeps one program cell (60 R143, a model
whose cells are wider than a digit; log entry 1). -/

namespace Sys2Proof

/-- A register value: an unsigned 64-bit integer (10 R21). -/
abbrev Word := BitVec 64

/-- A digit, 0 to 7 (00 R9). -/
abbrev Digit := BitVec 3

/-- One program cell as memory holds it. A conforming program only holds 0 to 7 there
(log entry 1). DESIGN CHOICE, safe. -/
abbrev Byte := BitVec 8

end Sys2Proof
end

