-- ==== Sys2Proof/Syntax.lean ====
section
/-! DEFINITION. The instruction set (00 R2, 30 R62): one constructor per row of
spec/opcode_table.json, each with its raw 3-bit operand digit (90 C4: the operand stays raw and is
resolved when the instruction executes). -/

namespace Sys2Proof

/-- The eight instructions. The argument is the operand digit `k` (30 R61). -/
inductive Instr where
  | adv (k : Digit)
  | bxl (k : Digit)
  | bst (k : Digit)
  | jnz (k : Digit)
  | bxc (k : Digit)
  | out (k : Digit)
  | bdv (k : Digit)
  | cdv (k : Digit)
  deriving DecidableEq, Repr

/-- The three general registers (10 R21). -/
inductive Reg where
  | a
  | b
  | c
  deriving DecidableEq, Repr

end Sys2Proof
end

