-- ==== Sys2Proof/WellFormed.lean ====
section
/-! DEFINITION. Which instructions are legal (30 R67). The operand field is a 3-bit digit, so every
term of `Instr` has an encoding and decodes back; the one check left is that a combo-kind
instruction does not hold combo code 7. The statements about decoding and stepping do not assume it:
an ill-formed instruction is decoded, and faults when it executes (30 R68, 60 R141). -/

namespace Sys2Proof

/-- 30 R67: `false` exactly for the five illegal words 0o07, 0o27, 0o57, 0o67 and 0o77. -/
def Instr.wellFormed : Instr → Bool
  | .adv k => k != 7
  | .bxl _ => true
  | .bst k => k != 7
  | .jnz _ => true
  | .bxc _ => true
  | .out k => k != 7
  | .bdv k => k != 7
  | .cdv k => k != 7

end Sys2Proof
end

