-- ==== Sys2Proof/Decode.lean ====
section
/-! DEFINITION. The decoder and the encoder (30 R60 to R68): two cells, opcode first (20 R43), or the
6-bit word W = 8·op + k (30 R61). Cells are bytes here, so the decoder makes the wide-cell checks of
60 R143 and names what it refuses. -/

namespace Sys2Proof

/-- What the decoder refuses, in the order of 60 R143 and R149: the offending cell is carried. -/
inductive DecodeError where
  /-- The opcode cell is above 7. -/
  | invalidOpcode (cell : Byte)
  /-- The operand cell is above 7, whatever the opcode. -/
  | invalidOperand (cell : Byte)
  deriving DecidableEq, Repr

/-- The opcode map of 30 R62: the instruction that the opcode digit `op` selects, with operand `k`. -/
def ofDigits (op k : Digit) : Instr :=
  match op.toNat with
  | 0 => .adv k
  | 1 => .bxl k
  | 2 => .bst k
  | 3 => .jnz k
  | 4 => .bxc k
  | 5 => .out k
  | 6 => .bdv k
  | _ => .cdv k

/-- The instruction of a 6-bit word: op = W[5:3], k = W[2:0] (30 R61). Total (30 R68). -/
def decodeWord (w : BitVec 6) : Instr :=
  ofDigits (w.extractLsb' 3 3) (w.extractLsb' 0 3)

/-- The instruction of an opcode cell and an operand cell, with the checks of 60 R143 first. -/
def decodeCells (op k : Byte) : Except DecodeError Instr :=
  if 7 < op.toNat then .error (.invalidOpcode op)
  else if 7 < k.toNat then .error (.invalidOperand k)
  else .ok (ofDigits (op.setWidth 3) (k.setWidth 3))

/-- The decoded instruction stream of a raw digit stream (10 R28): two cells an instruction
(30 R60). `none` where a pair is refused or the stream ends inside one. -/
def decodeStream : List Byte → Option (List Instr)
  | [] => some []
  | [_] => none
  | op :: k :: rest =>
    match decodeCells op k, decodeStream rest with
    | .ok i, some is => some (i :: is)
    | _, _ => none

/-- The opcode digit of an instruction (30 R62). -/
def Instr.opDigit : Instr → Digit
  | .adv _ => 0
  | .bxl _ => 1
  | .bst _ => 2
  | .jnz _ => 3
  | .bxc _ => 4
  | .out _ => 5
  | .bdv _ => 6
  | .cdv _ => 7

/-- The operand digit of an instruction. -/
def Instr.operand : Instr → Digit
  | .adv k => k
  | .bxl k => k
  | .bst k => k
  | .jnz k => k
  | .bxc k => k
  | .out k => k
  | .bdv k => k
  | .cdv k => k

/-- The two cells of an instruction, opcode first (20 R43). -/
def encode (i : Instr) : List Byte :=
  [i.opDigit.setWidth 8, i.operand.setWidth 8]

/-- The 6-bit word of an instruction (30 R61). -/
def encodeWord (i : Instr) : BitVec 6 :=
  i.opDigit ++ i.operand

/-- The opcode cell and the operand cell of an instruction whose bits are `w`, numbered as
spec/opcode_table.json numbers them (W[5:3] and W[2:0]). Bits above W[5] are no bits of an
instruction: they go to the opcode cell, where the decoder refuses them (log entry 20). -/
def tableCells (nbits w : Nat) : Byte × Byte :=
  (BitVec.ofNat 8 (min (w % 2 ^ nbits / 8) 255), BitVec.ofNat 8 (w % 2 ^ nbits % 8))

/-- The instruction the decoder reads from a word of the opcode table; `none` where it refuses. -/
def decodeTableWord (nbits w : Nat) : Option Instr :=
  match decodeCells (tableCells nbits w).1 (tableCells nbits w).2 with
  | .ok i => some i
  | .error _ => none

end Sys2Proof
end

