-- ==== Sys2Proof/Config.lean ====
section
/-! DEFINITION. The parameters the spec leaves to the implementation (00 R9). An instance carries its
own values in its state, so that every statement about all states is a statement about all values of
the parameters (log entry 6). The spec leaves no value open, so there is no free value here. -/

namespace Sys2Proof

/-- The OPEN parameters of 00 R9 and 92 D6, D13, D14. `none` is the spec's "unbounded". -/
structure Config.Params where
  /-- OUT_CAP: the capacity of the output sequence, in digits (44 R133). -/
  outCap : Option Nat
  /-- MAX_PLEN: the longest program LOAD accepts, in pair slots (60 R147 item 4). -/
  maxPlen : Option Nat
  /-- PRECHECK_AT_LOAD: whether LOAD refuses combo code 7 (60 R147). -/
  precheckAtLoad : Bool
  deriving DecidableEq, Repr

/-- The defaults of 00 R9: no bound on the output or the program, no check at load. -/
def Config.defaults : Config.Params := ⟨none, none, false⟩

end Sys2Proof
end

