-- ==== Sys2Proof/Machine/State.lean ====
section
/-! DEFINITION. The state of one core instance (10 R20) as plain data, the reasons a step can stop,
and the state right after reset: the instance before its first LOAD (70 R174). -/

namespace Sys2Proof.Machine

/-- The values of FAULT (10 R30). -/
inductive FaultStatus where
  | noFault
  | invalidOpcode
  | invalidOperand
  deriving DecidableEq, Repr

/-- Why no next state exists. Each is a condition in which the spec says the core takes no step. -/
inductive Fault where
  /-- Raised by the fetch when FAULT = NONE and IP ≥ L: the core is Halted, a normal end, and no
  step exists (40 R81, R87). Safe. -/
  | halted
  /-- Raised by the fetch when FAULT ≠ NONE: the core is Faulted and no step exists (40 R81). Safe. -/
  | faulted
  /-- Raised by `out` when OUT_SEQ already holds OUT_CAP digits: the core is stuck (44 R133). Safe. -/
  | outputFull
  /-- Raised by the fetch for a digit address from 2·L on, which does not exist (20 R40, R42). No
  step reaches it, because the fetch is made only when IP < L. Safe. -/
  | noSuchCell (addr : Nat)
  deriving DecidableEq, Repr

/-- Why a step is refused. -/
inductive Refusal where
  /-- An instruction that has no meaning yet. No arm answers with it. Safe. -/
  | notModelled (mnemonic : String)
  /-- Raised by the fetch before the first successful LOAD, where the spec refuses every operation
  but LOAD (70 R174). Safe. -/
  | notLoaded
  deriving DecidableEq, Repr

/-- The state of one instance: the tuple of 10 R20, whether a LOAD has succeeded (70 R174, log
entry 4), and the instance's parameters, which nothing changes (00 R9, log entry 6). -/
structure State where
  /-- Register A (10 R21). -/
  a : Word
  /-- Register B (10 R21). -/
  b : Word
  /-- Register C (10 R21). -/
  c : Word
  /-- IP, a pair-slot index (10 R24). -/
  ip : Nat
  /-- PROG: the program cells, by digit address (10 R28, 20 R40), in canonical form (log entry 2). -/
  prog : List Host.Cell
  /-- L: the program length in pair slots (10 R28). -/
  plen : Nat
  /-- OUT_SEQ: the digits emitted so far, oldest first (10 R29). -/
  outSeq : List Digit
  /-- FAULT (10 R30). -/
  fault : FaultStatus
  /-- Whether a LOAD has succeeded on this instance (70 R174). -/
  loaded : Bool
  /-- OUT_CAP, MAX_PLEN and PRECHECK_AT_LOAD of this instance (00 R9). -/
  params : Config.Params
  deriving DecidableEq, Repr

/-- The instance before its first LOAD, with the default parameters. The spec leaves its state
unspecified and refuses every operation but LOAD (70 R174), so no operation shows these values:
DESIGN CHOICE, log entry 5, unsafe. -/
def State.reset : State where
  a := 0
  b := 0
  c := 0
  ip := 0
  prog := []
  plen := 0
  outSeq := []
  fault := .noFault
  loaded := false
  params := Config.defaults

end Sys2Proof.Machine
end

