-- ==== Sys2Proof/Machine/Memory.lean ====
section
/-! DEFINITION. Program memory as a list of (digit address, byte) cells in one canonical form:
addresses strictly rising, no cell listed that equals what an unlisted address reads as. -/

namespace Sys2Proof.Machine

/-- What an unlisted address reads as: the digit 0. LOAD gives every cell below 2·L a digit, so this
only says how a loaded 0 is kept (log entry 2). DESIGN CHOICE, safe. -/
def Memory.unlisted : Byte := 0

/-- The byte at an address. -/
def Memory.read : List Host.Cell → Nat → Byte
  | [], _ => Memory.unlisted
  | (x, v) :: m, addr => if x = addr then v else Memory.read m addr

/-- Memory with one byte written; writing the unlisted value removes the cell. -/
def Memory.write : List Host.Cell → Nat → Byte → List Host.Cell
  | [], addr, v => if v = Memory.unlisted then [] else [(addr, v)]
  | (x, w) :: m, addr, v =>
    if addr < x then
      if v = Memory.unlisted then (x, w) :: m else (addr, v) :: (x, w) :: m
    else if addr = x then
      if v = Memory.unlisted then m else (addr, v) :: m
    else (x, w) :: Memory.write m addr v

/-- The canonical form, from a least address on. -/
def Memory.wfFrom : Nat → List Host.Cell → Bool
  | _, [] => true
  | lo, (x, v) :: m => decide (lo ≤ x) && decide (v ≠ Memory.unlisted) && Memory.wfFrom (x + 1) m

/-- The canonical form. -/
def Memory.wf (m : List Host.Cell) : Bool := Memory.wfFrom 0 m

/-- The memory that holds a list of bytes from address `base` on (70 R170, `PROG <- digits`). -/
def Memory.ofDigits : Nat → List Byte → List Host.Cell
  | _, [] => []
  | base, v :: vs =>
    if v = Memory.unlisted then Memory.ofDigits (base + 1) vs
    else (base, v) :: Memory.ofDigits (base + 1) vs

end Sys2Proof.Machine
end

