-- ==== Sys2Proof/Machine/Ops.lean ====
section
/-! DEFINITION. The named operations over registers, IP, program memory, OUT_SEQ and FAULT. Every
instruction is written over these. -/

namespace Sys2Proof.Machine

/-- `x[r]` (00 R11). -/
def readReg (s : State) : Reg → Word
  | .a => s.a
  | .b => s.b
  | .c => s.c

/-- `x[r] <- v` (00 R11). -/
def writeReg (s : State) (r : Reg) (v : Word) : State :=
  match r with
  | .a => { s with a := v }
  | .b => { s with b := v }
  | .c => { s with c := v }

/-- `pc <- t` (00 R11). -/
def setIp (s : State) (t : Nat) : State := { s with ip := t }

/-- The default advance `IP <- IP + 1` (40 R85). -/
def advance (s : State) : State := setIp s (s.ip + 1)

/-- `MemRead(addr, 1)` (20 R42): the cell at a digit address, `none` from 2·L on, where no cell
exists. -/
def readCell (s : State) (addr : Nat) : Option Byte :=
  if addr < 2 * s.plen then some (Memory.read s.prog addr) else none

/-- `MemRead(addr, 2)` (20 R42) as its two cells, the one at the lower address first. -/
def readPair (s : State) (addr : Nat) : Option (Byte × Byte) :=
  match readCell s addr, readCell s (addr + 1) with
  | some hi, some lo => some (hi, lo)
  | _, _ => none

/-- `MemRead(addr, 2)` packed into the 6-bit word `op ++ k` of 20 R42 and 30 R61. -/
def readWord6 (s : State) (addr : Nat) : Option (BitVec 6) :=
  match readPair s addr with
  | some (hi, lo) => some (hi.setWidth 3 ++ lo.setWidth 3)
  | none => none

/-- The raw digit stream as the host reads it back (20 R41): the cells 0 to 2·L − 1. -/
def rawCells (s : State) : List Byte :=
  (List.range (2 * s.plen)).map (Memory.read s.prog)

/-- Room for one more digit in OUT_SEQ (44 R133); always, when OUT_CAP is unbounded. -/
def hasRoom (s : State) : Bool :=
  match s.params.outCap with
  | none => true
  | some cap => decide (s.outSeq.length < cap)

/-- `Emit(d)` (44 R131): append a digit to OUT_SEQ. -/
def emit (d : Digit) (s : State) : State := { s with outSeq := s.outSeq ++ [d] }

/-- Taking an exception (60 R144, R150): `FAULT <- F` and nothing else, so IP stays on the faulting
slot. The core has no return from one (60 R151): only LOAD and REINIT leave Faulted. -/
def raiseFault (f : FaultStatus) (s : State) : State := { s with fault := f }

/-- Which fault a refused decoding raises (60 R143). -/
def faultOfDecode : DecodeError → FaultStatus
  | .invalidOpcode _ => .invalidOpcode
  | .invalidOperand _ => .invalidOperand

end Sys2Proof.Machine
end

