-- ==== Sys2Proof/Machine/Operands.lean ====
section
/-! DEFINITION. The operand forms (30 R63 to R66): combo, literal, ignored. -/

namespace Sys2Proof.Machine

/-- The three ways an opcode uses its operand digit (30 R63). -/
inductive OperandKind where
  | combo
  | literal
  | ignored
  deriving DecidableEq, Repr

/-- The tagged variant of 30 R65: what a combo operand code names. -/
inductive ComboSource where
  | literal (v : BitVec 2)
  | register (r : Reg)
  deriving DecidableEq, Repr

/-- The operand kind of each instruction (30 R62). -/
def operandKind : Instr → OperandKind
  | .adv _ => .combo
  | .bxl _ => .literal
  | .bst _ => .combo
  | .jnz _ => .literal
  | .bxc _ => .ignored
  | .out _ => .combo
  | .bdv _ => .combo
  | .cdv _ => .combo

/-- The combo operand codes (30 R65): 0 to 3 the literal, 4, 5, 6 the registers, 7 invalid. -/
def comboSource (k : Digit) : Option ComboSource :=
  match k.toNat with
  | 0 => some (.literal 0)
  | 1 => some (.literal 1)
  | 2 => some (.literal 2)
  | 3 => some (.literal 3)
  | 4 => some (.register .a)
  | 5 => some (.register .b)
  | 6 => some (.register .c)
  | _ => none

/-- The live value a combo source stands for (30 R66). -/
def sourceValue (s : State) : ComboSource → Word
  | .literal v => v.setWidth 64
  | .register r => readReg s r

/-- `combo(k)` (30 R66); `none` where it raises InvalidOperand. -/
def combo (s : State) (k : Digit) : Option Word :=
  (comboSource k).map (sourceValue s)

/-- The literal operand as a register value: `zext_64(k)` (30 R64). -/
def zext64 (k : Digit) : Word := k.setWidth 64

/-- The literal operand of `jnz` as a slot index: `k / 2`, floor (30 R64, 43 R120). -/
def jumpTarget (k : Digit) : Nat := k.toNat / 2

/-- `v mod 8` as a digit: bits 2..0 (42 R111, 44 R130). -/
def lowDigit (v : Word) : Digit := v.setWidth 3

/-- A combo-kind instruction: its operand is resolved on the registers before any write, and combo
code 7 takes the InvalidOperand fault before anything is written (30 R66, 60 R141). -/
def withCombo (k : Digit) (s : State) (f : Word → Host.Outcome State Fault Refusal) :
    Host.Outcome State Fault Refusal :=
  match combo s k with
  | some v => f v
  | none => .next (raiseFault .invalidOperand s)

end Sys2Proof.Machine
end

