-- ==== Sys2Proof/Machine/Bitwise.lean ====
section
/-! DEFINITION. The B-register bitwise family (42 R110 to R112): bxl, bst, bxc. -/

namespace Sys2Proof.Machine

/-- `x[B] <- v; pc <- IP + 1`: the shape of the family's effect. -/
def setB (v : Word) (s : State) : State := advance (writeReg s .b v)

/-- bxl (42 R110): B xor the literal. Every operand is legal. -/
def execBxl (k : Digit) (s : State) : Host.Outcome State Fault Refusal :=
  .next (setB (readReg s .b ^^^ zext64 k) s)

/-- bst (42 R111): B becomes the combo value mod 8. -/
def execBst (k : Digit) (s : State) : Host.Outcome State Fault Refusal :=
  withCombo k s fun v => .next (setB (zext64 (lowDigit v)) s)

/-- bxc (42 R112): B xor C. The operand is ignored entirely. -/
def execBxc (_k : Digit) (s : State) : Host.Outcome State Fault Refusal :=
  .next (setB (readReg s .b ^^^ readReg s .c) s)

end Sys2Proof.Machine
end

