-- ==== Sys2Proof/Machine/Flags.lean ====
section
/-! DEFINITION. The core has no flags (10 R27). What is computed from the state instead: the one
condition an instruction tests, the run condition (40 R80), and the read-only STATUS (10 R31). -/

namespace Sys2Proof.Machine

/-- `A != 0`, the only condition any instruction tests (10 R27). -/
def aNonZero (s : State) : Bool := readReg s .a != 0

/-- The three conditions of 40 R80. -/
inductive RunState where
  | running
  | halted
  | faulted
  deriving DecidableEq, Repr

/-- The condition the core is in (40 R80). -/
def runState (s : State) : RunState :=
  if s.fault = .noFault then
    if s.ip < s.plen then .running else .halted
  else .faulted

/-- The codes of FAULT (60 R145). -/
def faultCode : FaultStatus → BitVec 2
  | .noFault => 0
  | .invalidOpcode => 1
  | .invalidOperand => 2

/-- The codes of RUN_STATE (10 R31). -/
def runCode : RunState → BitVec 2
  | .running => 0
  | .halted => 1
  | .faulted => 2

/-- STATUS (10 R31): RUN_STATE in [1:0], FAULT in [3:2], [7:4] read as 0. -/
def statusWord (s : State) : BitVec 8 :=
  0#4 ++ faultCode s.fault ++ runCode (runState s)

end Sys2Proof.Machine
end

