-- ==== Sys2Proof/Machine/Control.lean ====
section
/-! DEFINITION. Control transfer (43 R120 to R122): jnz. -/

namespace Sys2Proof.Machine

/-- jnz (43 R120): if A ≠ 0 the literal, halved, becomes IP and the default advance is suppressed;
else only the advance. -/
def execJnz (k : Digit) (s : State) : Host.Outcome State Fault Refusal :=
  .next (if aNonZero s then setIp s (jumpTarget k) else advance s)

end Sys2Proof.Machine
end

