-- ==== Sys2Proof/Machine/Output.lean ====
section
/-! DEFINITION. The output digit sequencer (44 R130 to R133): out. -/

namespace Sys2Proof.Machine

/-- out (44 R130): emit the combo value mod 8. Combo code 7 faults before anything is emitted; only
an emission that finds OUT_SEQ full is stuck (44 R133; the order: log entry 10). -/
def execOut (k : Digit) (s : State) : Host.Outcome State Fault Refusal :=
  withCombo k s fun v =>
    if hasRoom s then .next (advance (emit (lowDigit v) s)) else .fault .outputFull

end Sys2Proof.Machine
end

