-- ==== Sys2Proof/Machine/Shift.lean ====
section
/-! DEFINITION. The shift-divide family (41 R100 to R103): adv, bdv, cdv. -/

namespace Sys2Proof.Machine

/-- `shr64(x, v)` (41 R100): floor(x / 2^v); 0 for a count of 64 or more (92 D3, 90 C1). -/
def shr64 (x v : Word) : Word :=
  if 64 ≤ v.toNat then 0 else x >>> v.toNat

/-- `v <- combo(k); x[dst] <- shr64(x[A], v); pc <- IP + 1`: the shape of the family. -/
def shiftInto (dst : Reg) (k : Digit) (s : State) : Host.Outcome State Fault Refusal :=
  withCombo k s fun v => .next (advance (writeReg s dst (shr64 (readReg s .a) v)))

/-- adv (41 R101): A-divide. -/
def execAdv (k : Digit) (s : State) : Host.Outcome State Fault Refusal := shiftInto .a k s

/-- bdv (41 R102): the quotient goes to B. -/
def execBdv (k : Digit) (s : State) : Host.Outcome State Fault Refusal := shiftInto .b k s

/-- cdv (41 R103): the quotient goes to C. -/
def execCdv (k : Digit) (s : State) : Host.Outcome State Fault Refusal := shiftInto .c k s

end Sys2Proof.Machine
end

