-- ==== Sys2Proof/Machine/Fetch.lean ====
section
/-! DEFINITION. Fetch and decode (40 R81 to R83): which instruction the step runs, or why none. -/

namespace Sys2Proof.Machine

/-- The instruction at IP (40 R82, R83), or the outcome of a step that runs none: refused before the
first LOAD (70 R174), no step in Halted and Faulted (40 R81), and a decode that raises a fault takes
it (60 R143, R144). -/
def fetchInstr (s : State) : Except (Host.Outcome State Fault Refusal) Instr :=
  if s.loaded then
    match runState s with
    | .halted => .error (.fault .halted)
    | .faulted => .error (.fault .faulted)
    | .running =>
      match readPair s (2 * s.ip) with
      | none => .error (.fault (.noSuchCell (2 * s.ip)))
      | some (op, k) =>
        match decodeCells op k with
        | .error e => .error (.next (raiseFault (faultOfDecode e) s))
        | .ok i => .ok i
  else .error (.refused .notLoaded)

/-- A state that runs the given cells next: the slot at IP exists and holds them, and the core is
loaded and not Faulted. This stands for the host's LOAD of a program that holds them there (log
entry 7); no operation of the core does it. -/
def placeCells (s : State) (op k : Byte) : State :=
  { s with
    prog := Memory.write (Memory.write s.prog (2 * s.ip) op) (2 * s.ip + 1) k
    plen := max s.plen (s.ip + 1)
    fault := .noFault
    loaded := true }

end Sys2Proof.Machine
end

