-- ==== Sys2Proof/Machine/Step.lean ====
section
/-! DEFINITION. One step (40 R82 to R86, R94): fetch, decode, execute. The advance is part of each
instruction's meaning. -/

namespace Sys2Proof.Machine

/-- One step of the core: the instruction at IP, or the reason there is none. -/
def step (s : State) : Host.Outcome State Fault Refusal :=
  match fetchInstr s with
  | .ok i => exec i s
  | .error o => o

/-- `s` with the instruction whose bits are `w` placed where the next step fetches (log entry 7). -/
def State.withFetchWord (s : State) (nbits w : Nat) : State :=
  placeCells s (tableCells nbits w).1 (tableCells nbits w).2

end Sys2Proof.Machine
end

