-- ==== Sys2Proof/Machine/HostOps.lean ====
section
/-! DEFINITION. The host's operations on one instance and on several (70 R170 to R177, 40 R88 to R93):
LOAD, REINIT, STEP, the two run modes, READ, and a write to STATUS. Each takes the state from one
operation boundary to the next and answers a reply. -/

namespace Sys2Proof.Machine

/-- The LOAD status (60 R145). -/
inductive LoadStatus where
  | ok
  | malformedInput
  | invalidOperand
  deriving DecidableEq, Repr

/-- The codes of the LOAD status (60 R145). -/
def loadCode : LoadStatus → Nat
  | .ok => 0
  | .malformedInput => 1
  | .invalidOperand => 2

/-- A register value LOAD and REINIT accept (60 R147 item 1). -/
def regOk (v : Int) : Bool := decide (0 ≤ v) && decide (v < 2 ^ 64)

/-- A digit LOAD accepts (60 R147 item 3). -/
def digitOk (d : Int) : Bool := decide (0 ≤ d) && decide (d ≤ 7)

/-- A length LOAD accepts (60 R147 items 2 and 4): even, and at most 2·MAX_PLEN. -/
def lengthOk (p : Config.Params) (n : Nat) : Bool :=
  decide (n % 2 = 0) &&
    match p.maxPlen with
    | none => true
    | some m => decide (n ≤ 2 * m)

/-- Some slot has a combo-kind opcode (0, 2, 5, 6, 7) and operand digit 7 (60 R147, the precheck). -/
def hasComboSeven : List Int → Bool
  | op :: k :: rest => ([0, 2, 5, 6, 7].contains op && k == 7) || hasComboSeven rest
  | _ => false

/-- The checks of LOAD (60 R147), the malformed inputs first (log entry 13). -/
def loadCheck (p : Config.Params) (digits : List Int) (a b c : Int) : LoadStatus :=
  if regOk a && regOk b && regOk c && lengthOk p digits.length && digits.all digitOk then
    if p.precheckAtLoad && hasComboSeven digits then .invalidOperand else .ok
  else .malformedInput

/-- The slot at which execution starts (20 R50, 70 R172). -/
def entrySlot : Nat := 0

/-- What LOAD and REINIT set beside the program (70 R170, R171). -/
def startRun (a b c : Int) (s : State) : State :=
  { s with
    a := BitVec.ofInt 64 a
    b := BitVec.ofInt 64 b
    c := BitVec.ofInt 64 c
    ip := entrySlot
    outSeq := []
    fault := .noFault }

/-- LOAD's effect when its checks hold (70 R170). -/
def setProgram (digits : List Int) (s : State) : State :=
  { s with
    prog := Memory.ofDigits 0 (digits.map (BitVec.ofInt 8))
    plen := digits.length / 2
    loaded := true }

/-- LOAD (70 R170): a failed check changes nothing. -/
def load (digits : List Int) (a b c : Int) (s : State) : LoadStatus × State :=
  match loadCheck s.params digits a b c with
  | .ok => (.ok, startRun a b c (setProgram digits s))
  | e => (e, s)

/-- REINIT on a loaded instance (70 R171): only the register values are checked. -/
def reinit (a b c : Int) (s : State) : LoadStatus × State :=
  if regOk a && regOk b && regOk c then (.ok, startRun a b c s) else (.malformedInput, s)

/-- What the host can READ (70 R177). -/
inductive Component where
  | a
  | b
  | c
  | ip
  | status
  | outSeq
  | prog
  deriving DecidableEq, Repr

/-- The value READ returns. -/
inductive ReadValue where
  | word (v : Word)
  | slot (n : Nat)
  | status (v : BitVec 8)
  | digits (ds : List Digit)
  | cells (cs : List Byte)
  deriving DecidableEq, Repr

/-- READ (70 R177). -/
def readComponent (s : State) : Component → ReadValue
  | .a => .word (readReg s .a)
  | .b => .word (readReg s .b)
  | .c => .word (readReg s .c)
  | .ip => .slot s.ip
  | .status => .status (statusWord s)
  | .outSeq => .digits s.outSeq
  | .prog => .cells (rawCells s)

/-- What a host operation returns (70 R175). -/
inductive Reply where
  /-- LOAD or REINIT. -/
  | loadStatus (st : LoadStatus)
  /-- STEP: one step made; the digit if the instruction was an `out` (40 R93). -/
  | stepped (e : Option Digit)
  /-- STEP on a Halted core (40 R93). -/
  | halted
  /-- STEP or a run mode: the run ended in this fault (60 R146). -/
  | fault (f : FaultStatus)
  /-- RUN_TO_HALT: the whole of OUT_SEQ (40 R88). -/
  | done (out : List Digit)
  /-- RUN_UNTIL_NEXT_OUTPUT: the digit emitted (40 R89). -/
  | yield (d : Digit)
  /-- RUN_UNTIL_NEXT_OUTPUT: Halted without output (40 R89). -/
  | noMoreOutput
  /-- READ (70 R177). -/
  | value (v : ReadValue)
  /-- A write to STATUS: no effect (10 R31). -/
  | ignored
  /-- Not allowed before the first successful LOAD (70 R174). -/
  | refused
  /-- The host stopped waiting for a run: unfinished, not Halted (40 R92, 70 R175; log entry 11). -/
  | unfinished
  /-- The core is stuck: the operation never returns (44 R133; log entry 12). -/
  | stuck
  deriving DecidableEq, Repr

/-- Whether the instruction at IP is an `out`, as RUN_UNTIL_NEXT_OUTPUT asks it (40 R89). -/
def wasOut (s : State) : Bool := readCell s (2 * s.ip) == some 5

/-- The output event of the step from `s` to `t` (44 R132): the last digit of OUT_SEQ, if the
instruction was an `out` that did not fault. -/
def stepEvent (s t : State) : Option Digit :=
  if wasOut s && decide (t.fault = .noFault) then t.outSeq.getLast? else none

/-- STEP (40 R93). -/
def hostStep (s : State) : Reply × State :=
  match step s with
  | .next t => (if t.fault = .noFault then .stepped (stepEvent s t) else .fault t.fault, t)
  | .fault .halted => (.halted, s)
  | .fault .faulted => (.fault s.fault, s)
  | .fault .outputFull => (.stuck, s)
  | .fault (.noSuchCell _) => (.stuck, s)
  | .refused _ => (.refused, s)

/-- RUN_TO_HALT (40 R88), given up by the host after `bound` turns of its loop. -/
def runToHalt : Nat → State → Reply × State
  | 0, s => (.unfinished, s)
  | bound + 1, s =>
    match runState s with
    | .faulted => (.fault s.fault, s)
    | .halted => (.done s.outSeq, s)
    | .running =>
      match step s with
      | .next t => runToHalt bound t
      | .fault _ => (.stuck, s)
      | .refused _ => (.refused, s)

/-- RUN_UNTIL_NEXT_OUTPUT (40 R89), given up by the host after `bound` turns of its loop. -/
def runUntilNextOutput : Nat → State → Reply × State
  | 0, s => (.unfinished, s)
  | bound + 1, s =>
    match runState s with
    | .faulted => (.fault s.fault, s)
    | .halted => (.noMoreOutput, s)
    | .running =>
      match step s with
      | .next t =>
        match stepEvent s t with
        | some d => (.yield d, t)
        | none => runUntilNextOutput bound t
      | .fault _ => (.stuck, s)
      | .refused _ => (.refused, s)

/-- The output events OUT(d) of the next `n` steps (44 R132), oldest first. -/
def outEvents : Nat → State → List Digit
  | 0, _ => []
  | n + 1, s =>
    match step s with
    | .next t => (stepEvent s t).toList ++ outEvents n t
    | _ => []

/-- The host's operations (70 R175). The bound of a run mode is the host's own (log entry 11). -/
inductive Command where
  | load (digits : List Int) (a b c : Int)
  | reinit (a b c : Int)
  | step
  | runToHalt (bound : Nat)
  | runUntilNextOutput (bound : Nat)
  | read (comp : Component)
  | writeStatus (v : BitVec 8)
  deriving DecidableEq, Repr

/-- An operation on a loaded instance. -/
def perform : Command → State → Reply × State
  | .load digits a b c, s => (.loadStatus (load digits a b c s).1, (load digits a b c s).2)
  | .reinit a b c, s => (.loadStatus (reinit a b c s).1, (reinit a b c s).2)
  | .step, s => hostStep s
  | .runToHalt bound, s => runToHalt bound s
  | .runUntilNextOutput bound, s => runUntilNextOutput bound s
  | .read comp, s => (.value (readComponent s comp), s)
  | .writeStatus _, s => (.ignored, s)

/-- Whether the operation is allowed before the first successful LOAD (70 R174, R175). -/
def allowedUnloaded : Command → Bool
  | .load _ _ _ _ => true
  | .writeStatus _ => true
  | _ => false

/-- One host operation (70 R174 to R176). -/
def command (cmd : Command) (s : State) : Reply × State :=
  if s.loaded || allowedUnloaded cmd then perform cmd s else (.refused, s)

/-- The state after a sequence of host operations, one at a time (70 R176). After a run mode that the
host stopped waiting for (`unfinished`) and after a call that never returns (`stuck`), the next
operation starts from the state the core had reached: DESIGN CHOICE, log entry 22. -/
def session : List Command → State → State
  | [], s => s
  | cmd :: cmds, s => session cmds (command cmd s).2

/-- One host operation on instance `n` of several (60 R156); no reply where there is no such
instance (log entry 16). -/
def commandAt (n : Nat) (cmd : Command) (cores : List State) : Option Reply × List State :=
  match cores[n]? with
  | none => (none, cores)
  | some s => (some (command cmd s).1, cores.set n (command cmd s).2)

end Sys2Proof.Machine
end

