-- ==== Sys2Proof/Machine/Loader.lean ====
section
/-! DEFINITION. The host's side of LOAD and of the result (70 R173, 44 R134): the text form of a
program and the comma-joined output. This is the host's contract, not the core's. A text whose form
is in doubt is refused (93, last row of section 1; log entry 15). -/

namespace Sys2Proof.Machine

/-- The arguments of LOAD. -/
structure LoadArgs where
  digits : List Int
  a : Int
  b : Int
  c : Int
  deriving DecidableEq, Repr

/-- The value of a decimal digit character. -/
def charDigit (ch : Char) : Option Nat :=
  if 48 ≤ ch.toNat ∧ ch.toNat ≤ 57 then some (ch.toNat - 48) else none

/-- What follows a fixed text, if the input begins with it. -/
def expect : List Char → List Char → Option (List Char)
  | [], rest => some rest
  | _ :: _, [] => none
  | p :: ps, ch :: rest => if p = ch then expect ps rest else none

/-- The decimal digits up to the end of the line, on top of the value `acc`, and what follows the
line break. -/
def lineNumber : Nat → List Char → Option (Nat × List Char)
  | _, [] => none
  | acc, ch :: rest =>
    if ch = '\n' then some (acc, rest)
    else
      match charDigit ch with
      | some d => lineNumber (10 * acc + d) rest
      | none => none

/-- An unsigned integer that fills the rest of its line: not empty, and no leading zero but in 0
itself. -/
def uintLine : List Char → Option (Nat × List Char)
  | [] => none
  | ch :: rest =>
    match charDigit ch, rest with
    | some 0, '\n' :: more => some (0, more)
    | some 0, _ => none
    | some d, _ => lineNumber d rest
    | none, _ => none

/-- The comma-separated digits 0 to 7 up to the end of the text (70 R173). -/
def digitLine : List Char → Option (List Int)
  | [] => none
  | [ch] =>
    match charDigit ch with
    | some d => if d ≤ 7 then some [(d : Int)] else none
    | none => none
  | ch :: sep :: rest =>
    match charDigit ch, digitLine rest with
    | some d, some ds => if d ≤ 7 ∧ sep = ',' then some ((d : Int) :: ds) else none
    | _, _ => none

/-- One line `Register X: <uint>`. -/
def registerLine (name : Char) (text : List Char) : Option (Nat × List Char) :=
  match expect ['R', 'e', 'g', 'i', 's', 't', 'e', 'r', ' ', name, ':', ' '] text with
  | some rest => uintLine rest
  | none => none

/-- The line `Program: d0,d1,d2,...`. -/
def programLine (text : List Char) : Option (List Int) :=
  match expect ['P', 'r', 'o', 'g', 'r', 'a', 'm', ':', ' '] text with
  | some rest => digitLine rest
  | none => none

/-- The text format of 70 R173: three register lines, then the program line. -/
def parseText (text : List Char) : Option LoadArgs :=
  match registerLine 'A' text with
  | none => none
  | some (a, t1) =>
    match registerLine 'B' t1 with
    | none => none
    | some (b, t2) =>
      match registerLine 'C' t2 with
      | none => none
      | some (c, t3) =>
        match programLine t3 with
        | none => none
        | some ds => some ⟨ds, a, b, c⟩

/-- The host loading a text (70 R173): a text without the form is MalformedInput. -/
def loadText (text : List Char) (s : State) : LoadStatus × State :=
  match parseText text with
  | some args => load args.digits args.a args.b args.c s
  | none => (.malformedInput, s)

/-- The character of a digit. -/
def digitChar (d : Digit) : Char := Char.ofNat (48 + d.toNat)

/-- The comma-joined decimal digits of an output sequence (44 R134). -/
def formatOutput : List Digit → List Char
  | [] => []
  | [d] => [digitChar d]
  | d :: ds => digitChar d :: ',' :: formatOutput ds

end Sys2Proof.Machine
end

