-- ==== Sys2Proof/Safety.lean ====
section
/-! DEFINITION. What the claims call a good state and a good end of a run. -/

namespace Sys2Proof

open Machine

/-- The invariant of an instance: its program memory is canonical and holds digits only, at addresses
below 2·L (10 R28, 20 R40); IP is in 0..max(L, 3) (10 R26); OUT_SEQ and L respect the parameters
(44 R133, 60 R147); and FAULT is never INVALID_OPCODE (60 R142). -/
structure GoodState (s : State) : Prop where
  canonical : Memory.wf s.prog = true
  cells : ∀ cell ∈ s.prog, cell.1 < 2 * s.plen ∧ cell.2.toNat ≤ 7
  ipBound : s.ip ≤ max s.plen 3
  outBound : ∀ cap ∈ s.params.outCap, s.outSeq.length ≤ cap
  lenBound : ∀ m ∈ s.params.maxPlen, s.plen ≤ m
  opcodeFault : s.fault ≠ .invalidOpcode

/-- Every slot of the program holds a legal instruction (30 R67). -/
def AllLegal (s : State) : Prop :=
  ∀ slot < s.plen, ∀ i, decodeCells (Memory.read s.prog (2 * slot)) (Memory.read s.prog (2 * slot + 1)) = .ok i →
    i.wellFormed = true

/-- The good end of a run: Halted. Faulted is an end too, and a failure (40 R95). It asks for FAULT, IP
and L alone, so a never-loaded instance meets it with the values of State.reset, though it has had no
run and the spec leaves its state unspecified (70 R174): DESIGN CHOICE, unsafe, log entry 21. -/
def GoodEnd (s : State) : Prop := runState s = .halted

/-- The core is loaded and Running: a step is possible (40 R80, R81). -/
def CanStep (s : State) : Prop := s.loaded = true ∧ s.fault = .noFault ∧ s.ip < s.plen

/-- The register an instruction writes (10 R22). -/
def destReg : Instr → Option Reg
  | .adv _ => some .a
  | .bxl _ => some .b
  | .bst _ => some .b
  | .jnz _ => none
  | .bxc _ => some .b
  | .out _ => none
  | .bdv _ => some .b
  | .cdv _ => some .c

/-- Whether the combo code names the register: 4 for A, 5 for B, 6 for C (10 R22). -/
def comboNames (k : Digit) : Reg → Bool
  | .a => k == 4
  | .b => k == 5
  | .c => k == 6

/-- Whether an instruction reads a register: the table of 10 R22. -/
def readsReg : Instr → Reg → Bool
  | .adv k, r => r == .a || comboNames k r
  | .bxl _, r => r == .b
  | .bst k, r => comboNames k r
  | .jnz _, r => r == .a
  | .bxc _, r => r == .b || r == .c
  | .out k, r => comboNames k r
  | .bdv k, r => r == .a || comboNames k r
  | .cdv k, r => r == .a || comboNames k r

/-- The host operations that start a new run (60 R151): LOAD and REINIT. -/
def startsRun : Command → Bool
  | .load _ _ _ _ => true
  | .reinit _ _ _ => true
  | _ => false

/-- LOAD. -/
def isLoad : Command → Bool
  | .load _ _ _ _ => true
  | _ => false

end Sys2Proof
end

