-- ==== Sys2Proof/Certificates/Slice0/Obligations.lean ====
section
/-! DEFINITION. The statements about this model, for the provers. Each docstring says which rule of
spec/ it formalises, or on which of the spec's own decisions and of the model's choices it rests. -/

namespace Sys2Proof.Spec

open Machine

/-- The value of combo operand `k` as a number (the table of 30 R65), for `k` other than 7. -/
def comboNat (s : State) (k : Digit) : Nat :=
  if k.toNat ≤ 3 then k.toNat
  else if k = 4 then s.a.toNat
  else if k = 5 then s.b.toNat
  else s.c.toNat

/-- All but the registers, IP and OUT_SEQ is as before, every program cell included. -/
structure KeepsRest (s t : State) : Prop where
  fault : t.fault = s.fault
  prog : t.prog = s.prog
  plen : t.plen = s.plen
  loaded : t.loaded = s.loaded
  params : t.params = s.params
  everyCell : ∀ addr, readCell t addr = readCell s addr

/-- Register `r` alone may differ, IP has advanced by one, and all else is as before. -/
structure WritesOnly (r : Reg) (s t : State) : Prop where
  others : ∀ q, q ≠ r → readReg t q = readReg s q
  ip : t.ip = s.ip + 1
  outSeq : t.outSeq = s.outSeq
  rest : KeepsRest s t

/-- The instruction runs, puts floor(A / 2^v) into `r` for the combo value v, and changes nothing
else but IP. -/
def DividesInto (r : Reg) (i : Instr) (k : Digit) (s : State) : Prop :=
  ∃ t, exec i s = .next t ∧ (readReg t r).toNat = s.a.toNat / 2 ^ comboNat s k ∧ WritesOnly r s t

/-- IP after an instruction that does not fault (10 R25). -/
def nextIp (i : Instr) (s : State) : Nat :=
  match i with
  | .jnz k => if s.a ≠ 0 then k.toNat / 2 else s.ip + 1
  | _ => s.ip + 1

/-- `n` steps, each with a next state. -/
def stepsTo : Nat → State → Option State
  | 0, s => some s
  | n + 1, s =>
    match step s with
    | .next t => stepsTo n t
    | _ => none

/-- 40 R94 written over numbers: the opcode and operand as read from program memory, the registers as
naturals, xor as the naturals' xor. `none` as the combo value is the raised InvalidOperand. -/
def pseudoStep (s : State) : State :=
  let op := (Memory.read s.prog (2 * s.ip)).toNat
  let k := (Memory.read s.prog (2 * s.ip + 1)).toNat
  let combo : Option Nat :=
    if k ≤ 3 then some k
    else if k = 4 then some s.a.toNat
    else if k = 5 then some s.b.toNat
    else if k = 6 then some s.c.toNat
    else none
  let faulted : State := { s with fault := .invalidOperand }
  match op, combo with
  | 0, some v => { s with a := BitVec.ofNat 64 (s.a.toNat / 2 ^ v), ip := s.ip + 1 }
  | 0, none => faulted
  | 1, _ => { s with b := BitVec.ofNat 64 (s.b.toNat ^^^ k), ip := s.ip + 1 }
  | 2, some v => { s with b := BitVec.ofNat 64 (v % 8), ip := s.ip + 1 }
  | 2, none => faulted
  | 3, _ => { s with ip := if s.a.toNat ≠ 0 then k / 2 else s.ip + 1 }
  | 4, _ => { s with b := BitVec.ofNat 64 (s.b.toNat ^^^ s.c.toNat), ip := s.ip + 1 }
  | 5, some v => { s with outSeq := s.outSeq ++ [BitVec.ofNat 3 (v % 8)], ip := s.ip + 1 }
  | 5, none => faulted
  | 6, some v => { s with b := BitVec.ofNat 64 (s.a.toNat / 2 ^ v), ip := s.ip + 1 }
  | 6, none => faulted
  | _, some v => { s with c := BitVec.ofNat 64 (s.a.toNat / 2 ^ v), ip := s.ip + 1 }
  | _, none => faulted

/-- The arguments LOAD accepts as well formed (60 R147 items 1 to 4). -/
structure GoodInput (p : Config.Params) (digits : List Int) (a b c : Int) : Prop where
  regA : 0 ≤ a ∧ a < 2 ^ 64
  regB : 0 ≤ b ∧ b < 2 ^ 64
  regC : 0 ≤ c ∧ c < 2 ^ 64
  evenLength : digits.length % 2 = 0
  inRange : ∀ d ∈ digits, 0 ≤ d ∧ d ≤ 7
  fits : ∀ m ∈ p.maxPlen, digits.length ≤ 2 * m

/-- The line `Register X: <uint>` of 70 R173, the number in decimal, and the line break. -/
def registerText (name : Char) (n : Nat) : List Char :=
  "Register ".toList ++ [name] ++ ": ".toList ++ Nat.toDigits 10 n ++ ['\n']

/-- The text of 70 R173 for a digit list and three register values. -/
def sourceText (ds : List Digit) (a b c : Nat) : List Char :=
  registerText 'A' a ++ registerText 'B' b ++ registerText 'C' c ++
    "Program: ".toList ++ List.intercalate [','] (ds.map fun d => Nat.toDigits 10 d.toNat)

/-- The arguments of LOAD for a digit list and three register values. -/
def loadArgs (ds : List Digit) (a b c : Nat) : LoadArgs :=
  ⟨ds.map fun d => (d.toNat : Int), a, b, c⟩

end Sys2Proof.Spec

open Sys2Proof Sys2Proof.Machine Sys2Proof.Spec

/-! ## Encoding -/

/-- Decoding what the encoder writes gives the instruction back, as a word and as two cells, and every
6-bit word is the word of the instruction it decodes to. Rests on the opcode map and the packing of
30 sections 1 and 2, which are the spec's decisions D1 and D2. -/
def Obligations.DecodeEncodeAgree : Prop :=
  (∀ i, decodeWord (encodeWord i) = i) ∧
  (∀ w, encodeWord (decodeWord w) = w) ∧
  (∀ i, decodeStream (encode i) = some [i])

/-- 30 R60: one format, two digits an instruction, the opcode digit first. A raw stream decodes to a
list of instructions exactly when it is their two-cell encodings in order, so a decoder consumes
exactly two cells for each. -/
def Obligations.StreamDecodesTwoDigitsEach : Prop :=
  (∀ cells is, decodeStream cells = some is ↔ cells = is.flatMap encode) ∧
  (∀ is : List Instr, (is.flatMap encode).length = 2 * is.length) ∧
  (∀ i : Instr, encode i = [i.opDigit.setWidth 8, i.operand.setWidth 8])

/-- Words written out from 30 section 2 and the fixtures of 95 decode to the instructions they stand
for. The digits of the opcodes are the spec's decision D1, the packing D2. -/
def Obligations.SampleWordsDecode : Prop :=
  decodeTableWord 8 0b000001 = some (.adv 1) ∧ decodeTableWord 8 0b001111 = some (.bxl 7) ∧
  decodeTableWord 8 0b010110 = some (.bst 6) ∧ decodeTableWord 8 0b011000 = some (.jnz 0) ∧
  decodeTableWord 8 0b100000 = some (.bxc 0) ∧ decodeTableWord 8 0b101100 = some (.out 4) ∧
  decodeTableWord 8 0b110101 = some (.bdv 5) ∧ decodeTableWord 8 0b111101 = some (.cdv 5) ∧
  decodeTableWord 8 0b1000000 = none

/-- The wide-cell checks come before the operand is used, the opcode cell first, the operand cell for
every opcode (60 section 2). The order and the coverage are the spec's decision D16; that the model
holds a cell in a byte is the model's choice, log entry 1. -/
def Obligations.WideCellsFaultInOrder : Prop :=
  ∀ s op k, CanStep s → readPair s (2 * s.ip) = some (op, k) →
    (7 < op.toNat → step s = .next { s with fault := .invalidOpcode }) ∧
    (op.toNat ≤ 7 → 7 < k.toNat → step s = .next { s with fault := .invalidOperand })

/-! ## The step -/

/-- A step runs the decoded instruction: when the core can step and the two cells at IP decode to `i`,
the step is `exec i`. Nothing stands around `exec`: the advance is part of each meaning (40 section 2). -/
def Obligations.StepRunsDecodedInstruction : Prop :=
  ∀ s op k i, CanStep s → readPair s (2 * s.ip) = some (op, k) → decodeCells op k = .ok i →
    step s = exec i s

/-- The same through the 6-bit word of 20 section 1 and 30 section 1 (the packing is the spec's decision
D2): where memory holds digits, the step runs the decoding of the word `op ++ k` at IP. -/
def Obligations.StepRunsPackedWord : Prop :=
  ∀ s w, GoodState s → CanStep s → readWord6 s (2 * s.ip) = some w → step s = exec (decodeWord w) s

/-- A word placed where the next step fetches is the instruction that step runs, from every state with
a canonical memory. That placing stands for a LOAD is the model's choice, log entry 7. -/
def Obligations.PlacedWordIsWhatStepRuns : Prop :=
  ∀ (s : State) nbits w i, Memory.wf s.prog = true → decodeTableWord nbits w = some i →
    step (s.withFetchWord nbits w) = exec i (s.withFetchWord nbits w)

/-- The step is the pseudocode of 40 section 2 (One step), here over natural numbers: from every state
with digits in memory in which the core can step and OUT_SEQ has room. It rests on the spec's decisions
D3 (counts of 64 and more give 0), D6 and D7 (combo code 7 faults at execution and writes FAULT alone),
D1 (opcode digits), D22 (odd jump targets) and D30 (reads before the write). -/
def Obligations.StepIsThePseudocode : Prop :=
  ∀ s, GoodState s → CanStep s → hasRoom s = true → step s = .next (pseudoStep s)

/-- 40 R81: a step exists only when the core is Running. On a loaded core that is Halted or Faulted
there is no next state, and the host's STEP returns the condition and changes nothing. -/
def Obligations.NoStepUnlessRunning : Prop :=
  (∀ s t, step s = .next t → runState s = .running) ∧
  (∀ s, s.loaded = true → runState s = .halted → command .step s = (.halted, s)) ∧
  (∀ s, s.loaded = true → runState s = .faulted → command .step s = (.fault s.fault, s))

/-- A Running core makes a step, but for one whose OUT_SEQ is filled to a finite OUT_CAP (44 section on
`out`; the spec's decision D13). -/
def Obligations.RunningCoreStepsOrIsFull : Prop :=
  ∀ s, GoodState s → CanStep s →
    (∃ t, step s = .next t) ∨
    (step s = .fault .outputFull ∧ s.params.outCap = some s.outSeq.length)

/-- Before the first successful LOAD, every operation that 70 section 3 allows only after one is refused
and changes nothing, and so is a step (the spec's decision D31). A LOAD that fails leaves it so. The
flag that records the LOAD is the model's, log entry 4. -/
def Obligations.UnloadedCoreRefuses : Prop :=
  ∀ s, s.loaded = false →
    step s = .refused .notLoaded ∧
    command .step s = (.refused, s) ∧
    (∀ n, command (.runToHalt n) s = (.refused, s)) ∧
    (∀ n, command (.runUntilNextOutput n) s = (.refused, s)) ∧
    (∀ a b c, command (.reinit a b c) s = (.refused, s)) ∧
    (∀ comp, command (.read comp) s = (.refused, s)) ∧
    (∀ ds a b c, (load ds a b c s).1 ≠ .ok → (command (.load ds a b c) s).2 = s)

/-! ## Invariants -/

/-- The state after reset meets the invariant. Its values are the model's choice (the spec leaves the
state before the first LOAD unspecified): log entry 5. -/
def Obligations.ResetMeetsInvariant : Prop :=
  GoodState State.reset ∧ State.reset.loaded = false ∧ step State.reset = .refused .notLoaded

/-- Every step keeps the invariant: memory stays canonical and holds digits below 2·L, IP stays in
0..max(L, 3), OUT_SEQ stays within OUT_CAP, and FAULT never becomes INVALID_OPCODE. -/
def Obligations.StepKeepsInvariant : Prop :=
  ∀ s t, GoodState s → step s = .next t → GoodState t

/-- Every host operation keeps the invariant, LOAD with any arguments and whole runs included. -/
def Obligations.CommandKeepsInvariant : Prop :=
  ∀ cmd s, GoodState s → GoodState (command cmd s).2

/-- 60 R142: an opcode digit outside 0 to 7 is a fatal InvalidOpcode where it is met; LOAD rejects one;
so from any successful LOAD on, no sequence of host operations reaches INVALID_OPCODE. -/
def Obligations.InvalidOpcodeUnreachable : Prop :=
  (∀ s op k, CanStep s → readPair s (2 * s.ip) = some (op, k) → 7 < op.toNat →
    ∃ t, step s = .next t ∧ t.fault = .invalidOpcode ∧ ∀ u, step t ≠ .next u) ∧
  (∀ ds a b c s, (∃ d ∈ ds, d < 0 ∨ 7 < d) → load ds a b c s = (.malformedInput, s)) ∧
  (∀ ds a b c s cmds, (load ds a b c s).1 = .ok →
    (session cmds (load ds a b c s).2).fault ≠ .invalidOpcode)

/-- With PRECHECK_AT_LOAD, once a LOAD has succeeded no later sequence of host operations ever faults:
the five illegal words of 30 section 5 cannot be loaded. The parameter is the spec's decision D6. -/
def Obligations.PrecheckedCoreNeverFaults : Prop :=
  ∀ ds a b c s cmds, s.params.precheckAtLoad = true → (load ds a b c s).1 = .ok →
    (session cmds (load ds a b c s).2).fault = .noFault

/-- While every slot holds a legal instruction (30 section 5), a step neither faults nor spoils that; the
core may be Halted after it. Rests on the spec's decision D6: combo code 7 alone faults, and only
when executed. -/
def Obligations.LegalProgramNeverFaults : Prop :=
  ∀ s t, GoodState s → AllLegal s → step s = .next t → t.fault = .noFault ∧ AllLegal t

/-! ## The instructions -/

/-- adv, bdv and cdv put floor(A / 2^v) into A, B and C, for the combo value v of every legal operand and
every register value, and change nothing else but IP, which advances. That a count of 64 or more gives 0
is the spec's decision D3, the digits of bdv and cdv D1, that the old values are read first D30. -/
def Obligations.ShiftFamilyDivides : Prop :=
  ∀ s k, k ≠ 7 →
    DividesInto .a (.adv k) k s ∧ DividesInto .b (.bdv k) k s ∧ DividesInto .c (.cdv k) k s

/-- Shifting A by itself gives 0, since A < 2^A (the corner case k = 4 of the three rules of 41). It
rests on the spec's decisions D3 and D30. -/
def Obligations.SelfShiftGivesZero : Prop :=
  ∀ s, exec (.adv 4) s = .next { s with a := 0, ip := s.ip + 1 } ∧
    exec (.bdv 4) s = .next { s with b := 0, ip := s.ip + 1 } ∧
    exec (.cdv 4) s = .next { s with c := 0, ip := s.ip + 1 }

/-- 42 R110: `bxl k` (op 1) xors the literal into B, bit by bit: only bits 2..0 can change, k = 0 leaves
B, twice restores B, every k is legal, nothing else changes but IP. -/
def Obligations.BxlXorsLiteral : Prop :=
  ∀ s k, decodeWord (1#3 ++ k) = .bxl k ∧ (Instr.bxl k).wellFormed = true ∧
    ∃ t, exec (.bxl k) s = .next t ∧ WritesOnly .b s t ∧
      (∀ j : Fin 64, t.b.getLsbD j = (s.b.getLsbD j ^^ (decide (j.val < 3) && k.getLsbD j))) ∧
      (k = 0 → t.b = s.b) ∧
      (∀ u, exec (.bxl k) t = .next u → u.b = s.b)

/-- `bst k` (op 2) sets B to the combo value mod 8 and changes nothing else but IP; k = 7 raises
InvalidOperand with B unwritten; k in 0..3 sets B to k; and the old B matters for k = 5 alone, where B
becomes B mod 8 (42 section on `bst`). That `bst 5` reads B before it writes it is the spec's decision D30,
the digit of the opcode D1, the packing of the word D2. -/
def Obligations.BstTakesLowDigit : Prop :=
  ∀ s k, decodeWord (2#3 ++ k) = .bst k ∧
    (k ≠ 7 → ∃ t, exec (.bst k) s = .next t ∧ t.b.toNat = comboNat s k % 8 ∧ WritesOnly .b s t ∧
      (k.toNat ≤ 3 → t.b.toNat = k.toNat) ∧
      (k ≠ 5 → ∀ x, ∃ u, exec (.bst k) (writeReg s .b x) = .next u ∧ u.b = t.b) ∧
      (k = 5 → t.b.toNat = s.b.toNat % 8)) ∧
    (k = 7 → ∃ t, exec (.bst k) s = .next t ∧ t.fault = .invalidOperand ∧ t.b = s.b)

/-- 42 R112: `bxc k` (op 4) xors C into B, bit by bit, whatever k, 7 included; nothing else changes but
IP; C = 0 leaves B, B = C gives 0. -/
def Obligations.BxcXorsC : Prop :=
  ∀ s k, decodeWord (4#3 ++ k) = .bxc k ∧ (∀ k', exec (.bxc k') s = exec (.bxc k) s) ∧
    ∃ t, exec (.bxc k) s = .next t ∧ WritesOnly .b s t ∧
      (∀ j : Fin 64, t.b.getLsbD j = (s.b.getLsbD j ^^ s.c.getLsbD j)) ∧
      (s.c = 0 → t.b = s.b) ∧ (s.b = s.c → t.b = 0)

/-- `jnz k` sets IP to floor(k / 2) if A is not 0, else advances, for every k, and changes nothing else;
the target is a slot 0 to 3, the one that holds digit k, and a target from L on halts the core. For an odd
k that is the spec's decision D22. -/
def Obligations.JnzBranchesOnA : Prop :=
  ∀ s k, decodeWord (3#3 ++ k) = .jnz k ∧
    (s.a ≠ 0 → exec (.jnz k) s = .next { s with ip := k.toNat / 2 } ∧ k.toNat / 2 ≤ 3 ∧
      (k.toNat = 2 * (k.toNat / 2) ∨ k.toNat = 2 * (k.toNat / 2) + 1) ∧
      (s.fault = .noFault → s.plen ≤ k.toNat / 2 → runState { s with ip := k.toNat / 2 } = .halted)) ∧
    (s.a = 0 → exec (.jnz k) s = .next { s with ip := s.ip + 1 })

/-- 44 R130: `out k` (op 5) emits the combo value mod 8 as the next output digit, neither halts nor
branches, and changes no register; k in 0..3 emits k; k = 7 raises InvalidOperand with nothing emitted;
and RUN_UNTIL_NEXT_OUTPUT yields right after it. OUT_SEQ must have room: without it see
OutputFullIsStuck and OutSevenFaultsWhenFull. -/
def Obligations.OutEmitsLowDigit : Prop :=
  ∀ s k, decodeWord (5#3 ++ k) = .out k ∧
    (k ≠ 7 → hasRoom s = true → ∃ t d, exec (.out k) s = .next t ∧ t.outSeq = s.outSeq ++ [d] ∧
      d.toNat = comboNat s k % 8 ∧ (k.toNat ≤ 3 → d = k) ∧ t.ip = s.ip + 1 ∧
      (∀ r, readReg t r = readReg s r) ∧ KeepsRest s t ∧
      (CanStep s → readPair s (2 * s.ip) = some (5, k.setWidth 8) →
        ∀ n, command (.runUntilNextOutput (n + 1)) s = (.yield d, t))) ∧
    (k = 7 → hasRoom s = true →
      ∃ t, exec (.out k) s = .next t ∧ t.fault = .invalidOperand ∧ t.outSeq = s.outSeq)

/-- An `out` that finds OUT_SEQ full has no step: the core is stuck, still Running, and the host's STEP
does not return. The spec's decision D13; that STEP then never returns is the model's reading, log entry
12. -/
def Obligations.OutputFullIsStuck : Prop :=
  ∀ s k, k ≠ 7 → hasRoom s = false →
    exec (.out k) s = .fault .outputFull ∧
    (CanStep s → readPair s (2 * s.ip) = some (5, k.setWidth 8) →
      command .step s = (.stuck, s) ∧ runState s = .running ∧
      ∀ n, command (.runToHalt (n + 1)) s = (.stuck, s))

/-- An `out` with operand 7 that finds OUT_SEQ full takes InvalidOperand, as with room: it would append
no digit, so it is not the `out` that 44's capacity leaves without a step. The spec does not say which
comes first: this is the model's reading, DEDUCED, unsafe, log entry 10. -/
def Obligations.OutSevenFaultsWhenFull : Prop :=
  ∀ s, hasRoom s = false →
    exec (.out 7) s = .next { s with fault := .invalidOperand } ∧
    (CanStep s → readPair s (2 * s.ip) = some (5, 7) →
      command .step s = (.fault .invalidOperand, { s with fault := .invalidOperand }) ∧
      ∀ n, command (.runToHalt (n + 2)) s = (.fault .invalidOperand, { s with fault := .invalidOperand }))

/-- 30 R65: the combo operand codes, with their tagged variants; 7 has no value and faults in the five
combo-kind instructions (`out` with room in OUT_SEQ: without it see OutSevenFaultsWhenFull); and the
loader accepts digit 7 in any operand cell (without the precheck). -/
def Obligations.ComboOperandTable : Prop :=
  (∀ s, combo s 0 = some 0 ∧ combo s 1 = some 1 ∧ combo s 2 = some 2 ∧ combo s 3 = some 3 ∧
    combo s 4 = some s.a ∧ combo s 5 = some s.b ∧ combo s 6 = some s.c ∧ combo s 7 = none) ∧
  (comboSource 0 = some (.literal 0) ∧ comboSource 1 = some (.literal 1) ∧
    comboSource 2 = some (.literal 2) ∧ comboSource 3 = some (.literal 3) ∧
    comboSource 4 = some (.register .a) ∧ comboSource 5 = some (.register .b) ∧
    comboSource 6 = some (.register .c) ∧ comboSource 7 = none) ∧
  (∀ i s, operandKind i = .combo → i.operand = 7 → ((∃ k, i = .out k) → hasRoom s = true) →
    ∃ t, exec i s = .next t ∧ t.fault = .invalidOperand) ∧
  (∀ ds a b c s, s.params.precheckAtLoad = false → GoodInput s.params ds a b c → (load ds a b c s).1 = .ok)

/-- Every legal instruction completes: from every state, with room in OUT_SEQ for `out`, it answers a
next state that has not faulted anew. -/
def Obligations.LegalInstructionsComplete : Prop :=
  ∀ i s, i.wellFormed = true → ((∃ k, i = .out k) → hasRoom s = true) →
    ∃ t, exec i s = .next t ∧ t.fault = s.fault ∧ t.ip = nextIp i s

/-- The frame of all eight instructions, from the table of 10 section 2: registers but the destination,
OUT_SEQ but for `out`, and all of program memory, L and the parameters are unchanged; FAULT is unchanged
or becomes INVALID_OPERAND. -/
def Obligations.ExecFrame : Prop :=
  ∀ i s t, exec i s = .next t →
    (∀ r, destReg i ≠ some r → readReg t r = readReg s r) ∧
    ((∀ k, i ≠ .out k) → t.outSeq = s.outSeq) ∧
    t.prog = s.prog ∧ t.plen = s.plen ∧ t.loaded = s.loaded ∧ t.params = s.params ∧
    (∀ addr, readCell t addr = readCell s addr) ∧
    (t.fault = s.fault ∨ t.fault = .invalidOperand)

/-- A register that the table of 10 section 2 does not list as read has no influence on an instruction:
with another value in it, the outcome differs in that register alone, and not even there if the
instruction writes it. -/
def Obligations.UnreadRegistersDoNotMatter : Prop :=
  ∀ i s t r x, readsReg i r = false → exec i s = .next t →
    exec i (writeReg s r x) =
      .next (if destReg i = some r ∧ i.wellFormed = true then t else writeReg t r x)

/-- After an instruction that does not fault IP is IP + 1, but after a taken jnz, which sets it to lit / 2
and suppresses the advance (10 section 3, 40 section 2). That an odd literal is halved down is the spec's
decision D22. -/
def Obligations.AdvanceUnlessTakenJump : Prop :=
  ∀ i s t, exec i s = .next t → t.fault = .noFault → t.ip = nextIp i s

/-- The illegal words of 30 section 5 are exactly those that fault when executed: an ill-formed
instruction takes InvalidOperand and writes FAULT alone, a well-formed one never faults. The spec's
decisions D6 (at execution) and D7 (FAULT alone). An `out` is stated with room in OUT_SEQ: that one with
operand 7 faults without room too is the model's reading, log entry 10, stated in
OutSevenFaultsWhenFull. -/
def Obligations.IllegalWordsFault : Prop :=
  ∀ i s, s.fault = .noFault →
    (i.wellFormed = false → ((∃ k, i = .out k) → hasRoom s = true) →
      exec i s = .next { s with fault := .invalidOperand }) ∧
    (i.wellFormed = true → ∀ t, exec i s = .next t → t.fault = .noFault)

/-- Faults are precise and end the run: a step that faults changes FAULT alone, and after it there is no
further step (60 sections 2 and 4, the spec's decision D7). -/
def Obligations.FaultsArePreciseAndFinal : Prop :=
  ∀ s t, step s = .next t → t.fault ≠ .noFault →
    s.fault = .noFault ∧ t = { s with fault := t.fault } ∧
    ∀ u, step t ≠ .next u

/-! ## Program memory -/

/-- 20 R45: no instruction writes PROG or L, and of the host's operations only LOAD does. -/
def Obligations.OnlyLoadWritesProgram : Prop :=
  (∀ i s t, exec i s = .next t → t.prog = s.prog ∧ t.plen = s.plen) ∧
  (∀ cmd s, isLoad cmd = false → (command cmd s).2.prog = s.prog ∧ (command cmd s).2.plen = s.plen)

/-- 20 R41: at any time after a LOAD, until the next, the host reads back exactly the digits it loaded,
in order. -/
def Obligations.RawDigitsReadBack : Prop :=
  ∀ ds a b c s cmds, (load ds a b c s).1 = .ok → (∀ cmd ∈ cmds, isLoad cmd = false) →
    ∃ cells : List Byte,
      command (.read .prog) (session cmds (load ds a b c s).2) =
        (.value (.cells cells), session cmds (load ds a b c s).2) ∧
      cells.map (fun cell => (cell.toNat : Int)) = ds

/-- 20 R43: after a LOAD, slot n's opcode is the digit at address 2n and its operand the digit at 2n + 1:
the two cells of the slot, the lower address first, hold these digits and decode to the instruction with
the first as its opcode and the second as its operand. -/
def Obligations.SlotHoldsOpcodeThenOperand : Prop :=
  ∀ ds a b c s slot, (load ds a b c s).1 = .ok → 2 * slot + 1 < ds.length →
    ∃ op k i, readPair (load ds a b c s).2 (2 * slot) = some (op, k) ∧
      ds[2 * slot]? = some (op.toNat : Int) ∧ ds[2 * slot + 1]? = some (k.toNat : Int) ∧
      decodeCells op k = .ok i ∧ i.opDigit.toNat = op.toNat ∧ i.operand.toNat = k.toNat

/-- The raw digit stream and the decoded instruction stream are two views of the same cells (10 section
5): the stream has 2·L cells, decodes to L instructions, and the step runs the one at IP. -/
def Obligations.StepRunsTheDecodedStream : Prop :=
  ∀ s, GoodState s → (rawCells s).length = 2 * s.plen ∧
    ∃ is, decodeStream (rawCells s) = some is ∧ is.length = s.plen ∧
      ∀ i, CanStep s → is[s.ip]? = some i → step s = exec i s

/-! ## Runs and output -/

/-- 40 R88: RUN_TO_HALT repeats the step until the core is not Running: a call returns Done with the whole
of OUT_SEQ exactly when the steps reach Halted, and the fault exactly when they reach Faulted; on a freshly
loaded or reinitialised core Done carries the digits emitted by this run. -/
def Obligations.RunToHaltRepeatsSteps : Prop :=
  (∀ s ds t, s.loaded = true →
    ((∃ n, command (.runToHalt n) s = (.done ds, t)) ↔
      ∃ m, stepsTo m s = some t ∧ GoodEnd t ∧ ds = t.outSeq)) ∧
  (∀ s f t, s.loaded = true →
    ((∃ n, command (.runToHalt n) s = (.fault f, t)) ↔
      ∃ m, stepsTo m s = some t ∧ runState t = .faulted ∧ f = t.fault)) ∧
  (∀ n xs a b c s ds t, (load xs a b c s).1 = .ok →
    command (.runToHalt n) (load xs a b c s).2 = (.done ds, t) → ds = outEvents n (load xs a b c s).2) ∧
  (∀ n a b c s ds t, s.loaded = true → (reinit a b c s).1 = .ok →
    command (.runToHalt n) (reinit a b c s).2 = (.done ds, t) → ds = outEvents n (reinit a b c s).2)

/-- The host's bound on a run mode decides only whether it waits long enough: a run mode that answers within
a bound answers the same within every larger one. The bound is the model's way to hold a run that may not
return (40 section 3, the spec's decision D15; log entry 11). -/
def Obligations.BoundOnlyDecidesWaiting : Prop :=
  ∀ n n' s, n ≤ n' →
    ((command (.runToHalt n) s).1 ≠ .unfinished →
      command (.runToHalt n') s = command (.runToHalt n) s) ∧
    ((command (.runUntilNextOutput n) s).1 ≠ .unfinished →
      command (.runUntilNextOutput n') s = command (.runUntilNextOutput n) s)

/-- The core has no step limit: a `jnz` at slot k / 2 that jumps to itself with A not 0 steps to the same
state for ever, so neither run mode returns, however long the host waits (40 section 3 and the corner cases
of 43; the spec's decisions D15 and D22). -/
def Obligations.SelfJumpNeverReturns : Prop :=
  ∀ s k, CanStep s → readPair s (2 * s.ip) = some (3, BitVec.setWidth 8 (k : Digit)) → s.a ≠ 0 →
    s.ip = k.toNat / 2 →
    ∀ n, stepsTo n s = some s ∧ command (.runToHalt n) s = (.unfinished, s) ∧
      command (.runUntilNextOutput n) s = (.unfinished, s)

/-- RUN_UNTIL_NEXT_OUTPUT yields after exactly one more digit, which OUT_SEQ has gained, and answers
NoMoreOutput only at Halted with none gained (40 section 3; that the digit is appended too is the spec's
decision D20). -/
def Obligations.NextOutputYieldsOneDigit : Prop :=
  (∀ n s d t, command (.runUntilNextOutput n) s = (.yield d, t) →
    ∃ m, m < n ∧ stepsTo (m + 1) s = some t ∧ t.outSeq = s.outSeq ++ [d] ∧ t.fault = .noFault) ∧
  (∀ n s t, command (.runUntilNextOutput n) s = (.noMoreOutput, t) →
    ∃ m, m < n ∧ stepsTo m s = some t ∧ runState t = .halted ∧ t.outSeq = s.outSeq)

/-- A run resumed after a yield goes on as if it had not stopped: what RUN_TO_HALT then returns is what it
would have returned from the start (40 section 3, the spec's decision D20). -/
def Obligations.ResumeContinuesTheRun : Prop :=
  ∀ n m s d t reply u, command (.runUntilNextOutput n) s = (.yield d, t) →
    command (.runToHalt m) t = (reply, u) → reply ≠ .unfinished →
    ∃ N, command (.runToHalt N) s = (reply, u)

/-- 40 R91: a run is deterministic: its states and results are a function of what LOAD was given (and of
the instance's parameters), whatever the instance did before. -/
def Obligations.RunsDependOnTheLoadAlone : Prop :=
  ∀ ds a b c s s', s.params = s'.params → (load ds a b c s).1 = .ok →
    (load ds a b c s').1 = .ok ∧
    (∀ n, stepsTo n (load ds a b c s).2 = stepsTo n (load ds a b c s').2) ∧
    (∀ cmd, command cmd (load ds a b c s).2 = command cmd (load ds a b c s').2)

/-- OUT_SEQ after n steps is OUT_SEQ before, then the output events of those steps in order (44 section
on `out`; the event OUT(d) is the spec's decision D23). -/
def Obligations.OutputIsTheEventsInOrder : Prop :=
  ∀ n s t, stepsTo n s = some t → t.outSeq = s.outSeq ++ outEvents n s

/-- 10 R29: an executed `out` appends one digit at the end, nothing else changes OUT_SEQ but LOAD and
REINIT, which clear it, and run-to-halt returns it. -/
def Obligations.OutputOnlyGrowsByOut : Prop :=
  (∀ k s t, exec (.out k) s = .next t → t.fault = .noFault → ∃ d, t.outSeq = s.outSeq ++ [d]) ∧
  (∀ i s t, exec i s = .next t → (∀ k, i ≠ .out k) → t.outSeq = s.outSeq) ∧
  (∀ cmd s, startsRun cmd = false → s.outSeq <+: (command cmd s).2.outSeq) ∧
  (∀ ds a b c s, (load ds a b c s).1 = .ok → (load ds a b c s).2.outSeq = []) ∧
  (∀ a b c s, (reinit a b c s).1 = .ok → (reinit a b c s).2.outSeq = []) ∧
  (∀ n s ds t, command (.runToHalt n) s = (.done ds, t) → ds = t.outSeq)

/-- 40 R87: with IP ≥ L and no fault the core is Halted; no instruction is fetched and no error raised; it
stays so, unchanged, until the host reloads or reinitialises; and an empty program halts at once with an
empty output. -/
def Obligations.HaltedStaysHalted : Prop :=
  (∀ s, s.loaded = true → s.fault = .noFault → s.plen ≤ s.ip →
    runState s = .halted ∧ (∀ t, step s ≠ .next t) ∧
    ∀ cmds, (∀ cmd ∈ cmds, startsRun cmd = false) → session cmds s = s) ∧
  (∀ a b c s n, (load [] a b c s).1 = .ok →
    runState (load [] a b c s).2 = .halted ∧
    command (.runToHalt (n + 1)) (load [] a b c s).2 = (.done [], (load [] a b c s).2))

/-- A Faulted core stays as it is until LOAD or REINIT (60 section 4): it has no step, every other host
operation leaves it unchanged, and STEP and both run modes return the same fault again and again (40
section 3). The spec's decisions D7 (Faulted) and D20 (the later calls). A run mode is asked for one turn
of its loop at least: with none the host has not waited at all, log entry 11. -/
def Obligations.FaultedStaysFaulted : Prop :=
  ∀ s, s.loaded = true → s.fault ≠ .noFault →
    runState s = .faulted ∧ (∀ t, step s ≠ .next t) ∧
    command .step s = (.fault s.fault, s) ∧
    (∀ n, command (.runToHalt (n + 1)) s = (.fault s.fault, s) ∧
      command (.runUntilNextOutput (n + 1)) s = (.fault s.fault, s)) ∧
    (∀ cmds, (∀ cmd ∈ cmds, startsRun cmd = false) → session cmds s = s) ∧
    (∀ a b c, (reinit a b c s).1 = .ok → (reinit a b c s).2.fault = .noFault) ∧
    (∀ ds a b c, (load ds a b c s).1 = .ok → (load ds a b c s).2.fault = .noFault)

/-! ## The host's operations -/

/-- What LOAD leaves when it succeeds (70 section 1 and the table of 10 section 9): the registers and
PROG hold what the host gave, and everything else is set (IP = 0 is the spec's decision D4, that it
discards the run in progress D28); and that a LOAD that fails changes nothing. -/
def Obligations.LoadSetsTheWholeState : Prop :=
  ∀ ds a b c s,
    ((load ds a b c s).1 = .ok →
      ((load ds a b c s).2.a.toNat : Int) = a ∧ ((load ds a b c s).2.b.toNat : Int) = b ∧
      ((load ds a b c s).2.c.toNat : Int) = c ∧ (load ds a b c s).2.ip = 0 ∧
      2 * (load ds a b c s).2.plen = ds.length ∧ (load ds a b c s).2.outSeq = [] ∧
      (load ds a b c s).2.fault = .noFault ∧ (load ds a b c s).2.loaded = true ∧
      (load ds a b c s).2.params = s.params ∧
      (rawCells (load ds a b c s).2).map (fun cell => (cell.toNat : Int)) = ds ∧
      (∀ addr, readCell (load ds a b c s).2 addr = (rawCells (load ds a b c s).2)[addr]?) ∧
      runState (load ds a b c s).2 = if ds = [] then .halted else .running) ∧
    ((load ds a b c s).1 ≠ .ok → (load ds a b c s).2 = s)

/-- Which arguments LOAD rejects, and with which status (60 section 3; the bounds are the spec's decisions
D14 and D17, the empty list D21, the precheck D6; that MALFORMED_INPUT goes first is the model's reading,
log entry 13). -/
def Obligations.LoadRejectsExactly : Prop :=
  ∀ ds a b c s,
    ((load ds a b c s).1 = .malformedInput ↔ ¬ GoodInput s.params ds a b c) ∧
    ((load ds a b c s).1 = .invalidOperand ↔
      GoodInput s.params ds a b c ∧ s.params.precheckAtLoad = true ∧
      ∃ slot op, ds[2 * slot]? = some op ∧ (op = 0 ∨ op = 2 ∨ op = 5 ∨ op = 6 ∨ op = 7) ∧
        ds[2 * slot + 1]? = some 7)

/-- REINIT keeps PROG and L, sets all else, and lets no value of an earlier run through; with a bad
register value it returns MALFORMED_INPUT and changes nothing; before a LOAD it is refused (70 sections 1
and 2). IP = 0 is the spec's decision D4, the bound 2^64 − 1 on a register value D17, the refusal before a
LOAD D31; the flag that records the LOAD is the model's, log entry 4. -/
def Obligations.ReinitStartsFresh : Prop :=
  (∀ a b c s, s.loaded = true → regOk a = true → regOk b = true → regOk c = true →
    ∃ t, command (.reinit a b c) s = (.loadStatus .ok, t) ∧ t.prog = s.prog ∧ t.plen = s.plen ∧
      (t.a.toNat : Int) = a ∧ (t.b.toNat : Int) = b ∧ (t.c.toNat : Int) = c ∧ t.ip = 0 ∧
      t.outSeq = [] ∧ t.fault = .noFault ∧
      ∀ s', s'.loaded = true → s'.prog = s.prog → s'.plen = s.plen → s'.params = s.params →
        command (.reinit a b c) s' = (.loadStatus .ok, t)) ∧
  (∀ a b c s, s.loaded = true → (regOk a && regOk b && regOk c) = false →
    command (.reinit a b c) s = (.loadStatus .malformedInput, s)) ∧
  (∀ v : Int, regOk v = true ↔ 0 ≤ v ∧ v ≤ 2 ^ 64 - 1) ∧
  (∀ a b c s, s.loaded = false → command (.reinit a b c) s = (.refused, s))

/-- What READ shows (70 section 3): on a loaded core each component's value, PROG as its cells, one for
each digit address, in order. STATUS (10 section 7, the spec's decision D11) has RUN_STATE in [1:0], the
code of FAULT in [3:2] (the numbers are its decision D8), [7:4] read 0, neither field ever 3. A write has
no effect, and no READ changes anything (its decision D24). -/
def Obligations.StatusAndReadsShowTheState : Prop :=
  (∀ s, (statusWord s).toNat =
    (match runState s with | .running => 0 | .halted => 1 | .faulted => 2) +
    4 * (match s.fault with | .noFault => 0 | .invalidOpcode => 1 | .invalidOperand => 2)) ∧
  (∀ s, (statusWord s).extractLsb' 4 4 = 0 ∧ (statusWord s).extractLsb' 0 2 ≠ 3 ∧
    (statusWord s).extractLsb' 2 2 ≠ 3) ∧
  (∀ s v, (command (.writeStatus v) s).2 = s) ∧
  (∀ s comp, (command (.read comp) s).2 = s) ∧
  (∀ s, s.loaded = true →
    (command (.read .a) s).1 = .value (.word s.a) ∧ (command (.read .b) s).1 = .value (.word s.b) ∧
    (command (.read .c) s).1 = .value (.word s.c) ∧ (command (.read .ip) s).1 = .value (.slot s.ip) ∧
    (command (.read .status) s).1 = .value (.status (statusWord s)) ∧
    (command (.read .outSeq) s).1 = .value (.digits s.outSeq) ∧
    ∃ cells : List Byte, (command (.read .prog) s).1 = .value (.cells cells) ∧
      cells.length = 2 * s.plen ∧ ∀ addr, cells[addr]? = readCell s addr)

/-- Instances share no state (60 section 5): an operation on one leaves every other as it was, and its
reply and effect are those of the operation on that instance alone. That several instances are a list is
the model's choice, log entry 16. -/
def Obligations.InstancesAreIndependent : Prop :=
  ∀ n cmd cores,
    (∀ m, m ≠ n → (commandAt n cmd cores).2[m]? = cores[m]?) ∧
    (∀ s, cores[n]? = some s →
      (commandAt n cmd cores).1 = some (command cmd s).1 ∧
      (commandAt n cmd cores).2[n]? = some (command cmd s).2)

/-- The text form of a program (70 section 1): the text of a digit list, not empty, and three register
values parses to exactly these, so the host loads them; and no other text parses, so the host answers
MALFORMED_INPUT and changes nothing. That the form is strict (one space, one line feed, no leading zero,
nothing after the digits, no empty list) is the model's choice, log entry 15. -/
def Obligations.TextParsesToItsArguments : Prop :=
  (∀ text args, parseText text = some args ↔
    ∃ ds a b c, ds ≠ [] ∧ text = sourceText ds a b c ∧ args = loadArgs ds a b c) ∧
  (∀ text args, parseText text = some args →
    0 ≤ args.a ∧ 0 ≤ args.b ∧ 0 ≤ args.c ∧ args.digits ≠ [] ∧ ∀ d ∈ args.digits, 0 ≤ d ∧ d ≤ 7) ∧
  (∀ (ds : List Digit) (a b c : Nat) (s : State), ds ≠ [] →
    loadText (sourceText ds a b c) s = load (ds.map fun d => (d.toNat : Int)) a b c s) ∧
  (∀ text s, (∀ ds a b c, ds ≠ [] → text ≠ sourceText ds a b c) → loadText text s = (.malformedInput, s))
end

