-- ==== Sys2Proof/Laws/Memory.lean ====
section
/-! SUPPORT. The laws of program memory: read after write, that every operation keeps the canonical
form, and that a canonical memory is determined by what it reads as. -/

namespace Sys2Proof.Machine

theorem Memory.wfFrom_cons {lo x : Nat} {v : Byte} {m : List Host.Cell} :
    Memory.wfFrom lo ((x, v) :: m) = true ↔ lo ≤ x ∧ v ≠ Memory.unlisted ∧ Memory.wfFrom (x + 1) m = true := by
  simp [Memory.wfFrom, and_assoc]

theorem Memory.wfFrom_mono {lo lo' : Nat} {m : List Host.Cell} (h : lo' ≤ lo) (hm : Memory.wfFrom lo m = true) :
    Memory.wfFrom lo' m = true := by
  cases m with
  | nil => rfl
  | cons cell m =>
    obtain ⟨hx, hv, hr⟩ := Memory.wfFrom_cons.1 hm
    exact Memory.wfFrom_cons.2 ⟨h.trans hx, hv, hr⟩

theorem Memory.read_below {lo addr : Nat} {m : List Host.Cell} (hm : Memory.wfFrom lo m = true) (h : addr < lo) :
    Memory.read m addr = Memory.unlisted := by
  induction m generalizing lo with
  | nil => rfl
  | cons cell m ih =>
    obtain ⟨hx, _, hr⟩ := Memory.wfFrom_cons.1 hm
    have hne : cell.1 ≠ addr := by omega
    simp only [Memory.read, if_neg hne]
    exact ih hr (by omega)

/-- Where the read gives no unlisted value, the cell is listed. -/
theorem Memory.mem_of_read {m : List Host.Cell} {addr : Nat} (h : Memory.read m addr ≠ Memory.unlisted) :
    (addr, Memory.read m addr) ∈ m := by
  induction m with
  | nil => exact absurd rfl h
  | cons cell m ih =>
    obtain ⟨x, v⟩ := cell
    by_cases hx : x = addr
    · simp [Memory.read, hx]
    · simp only [Memory.read, if_neg hx] at h ⊢
      exact List.mem_cons_of_mem _ (ih h)

/-- A listed cell of a canonical memory is what its address reads as. -/
theorem Memory.read_of_mem {lo addr : Nat} {v : Byte} {m : List Host.Cell} (hm : Memory.wfFrom lo m = true)
    (h : (addr, v) ∈ m) : Memory.read m addr = v ∧ lo ≤ addr := by
  induction m generalizing lo with
  | nil => simp at h
  | cons cell m ih =>
    obtain ⟨x, w⟩ := cell
    obtain ⟨hx, _, hr⟩ := Memory.wfFrom_cons.1 hm
    rcases List.mem_cons.1 h with h | h
    · cases h
      exact ⟨by simp [Memory.read], hx⟩
    · obtain ⟨hv, hlo⟩ := ih hr h
      have hne : x ≠ addr := by omega
      exact ⟨by simp only [Memory.read, if_neg hne, hv], by omega⟩

theorem Memory.write_wfFrom {lo addr : Nat} {v : Byte} {m : List Host.Cell} (hm : Memory.wfFrom lo m = true)
    (h : lo ≤ addr) : Memory.wfFrom lo (Memory.write m addr v) = true := by
  induction m generalizing lo with
  | nil =>
    by_cases hv : v = Memory.unlisted
    · simp [Memory.write, hv, Memory.wfFrom]
    · simp [Memory.write, hv, Memory.wfFrom, h]
  | cons cell m ih =>
    obtain ⟨x, w⟩ := cell
    obtain ⟨hx, hw, hr⟩ := Memory.wfFrom_cons.1 hm
    simp only [Memory.write]
    split_ifs with h1 hv h2 hv
    · exact hm
    · exact Memory.wfFrom_cons.2 ⟨h, hv, Memory.wfFrom_cons.2 ⟨by omega, hw, hr⟩⟩
    · exact Memory.wfFrom_mono (by omega) hr
    · exact Memory.wfFrom_cons.2 ⟨h, hv, by rw [h2]; exact hr⟩
    · exact Memory.wfFrom_cons.2 ⟨hx, hw, ih hr (by omega)⟩

theorem Memory.write_wf {addr : Nat} {v : Byte} {m : List Host.Cell} (hm : Memory.wf m = true) :
    Memory.wf (Memory.write m addr v) = true :=
  Memory.write_wfFrom hm (Nat.zero_le _)

theorem Memory.read_write {lo addr q : Nat} {v : Byte} {m : List Host.Cell} (hm : Memory.wfFrom lo m = true) :
    Memory.read (Memory.write m addr v) q = if q = addr then v else Memory.read m q := by
  induction m generalizing lo with
  | nil =>
    by_cases hv : v = Memory.unlisted <;> by_cases hq : addr = q <;>
      simp [Memory.write, Memory.read, hv, hq, eq_comm (a := q)]
  | cons cell m ih =>
    obtain ⟨x, w⟩ := cell
    obtain ⟨hx, hw, hr⟩ := Memory.wfFrom_cons.1 hm
    have below : ∀ p, p < x + 1 → Memory.read m p = Memory.unlisted := fun p hp => Memory.read_below hr hp
    simp only [Memory.write]
    split_ifs with h1 hv hq hq h2 hv hq hq hq
    · subst hq hv
      have hne : x ≠ q := by omega
      simp only [Memory.read, if_neg hne, below q (by omega)]
    · rfl
    · subst hq; simp [Memory.read]
    · simp only [Memory.read, if_neg (Ne.symm hq)]
    · subst hq hv; exact below q (by omega)
    · subst h2
      simp only [Memory.read, if_neg (Ne.symm hq)]
    · subst hq; simp [Memory.read]
    · subst h2
      simp only [Memory.read, if_neg (Ne.symm hq)]
    · have hne : x ≠ q := by omega
      simp only [Memory.read, if_neg hne, ih hr, if_pos hq]
    · simp only [Memory.read, ih hr, if_neg hq]

theorem Memory.read_write_same {addr : Nat} {v : Byte} {m : List Host.Cell} (hm : Memory.wf m = true) :
    Memory.read (Memory.write m addr v) addr = v := by
  rw [Memory.read_write hm, if_pos rfl]

theorem Memory.read_write_other {addr q : Nat} {v : Byte} {m : List Host.Cell} (hm : Memory.wf m = true)
    (h : q ≠ addr) : Memory.read (Memory.write m addr v) q = Memory.read m q := by
  rw [Memory.read_write hm, if_neg h]

theorem Memory.ofDigits_wfFrom (base : Nat) (vs : List Byte) :
    Memory.wfFrom base (Memory.ofDigits base vs) = true := by
  induction vs generalizing base with
  | nil => rfl
  | cons v vs ih =>
    simp only [Memory.ofDigits]
    split_ifs with hv
    · exact Memory.wfFrom_mono (Nat.le_succ _) (ih _)
    · exact Memory.wfFrom_cons.2 ⟨le_rfl, hv, ih _⟩

theorem Memory.ofDigits_wf (vs : List Byte) : Memory.wf (Memory.ofDigits 0 vs) = true :=
  Memory.ofDigits_wfFrom 0 vs

theorem Memory.read_ofDigits (base j : Nat) (vs : List Byte) :
    Memory.read (Memory.ofDigits base vs) (base + j) = (vs[j]?).getD Memory.unlisted := by
  induction vs generalizing base j with
  | nil => rfl
  | cons v vs ih =>
    simp only [Memory.ofDigits]
    cases j with
    | zero =>
      split_ifs with hv
      · simp [hv, Memory.read_below (Memory.ofDigits_wfFrom (base + 1) vs) (Nat.lt_succ_self base)]
      · simp [Memory.read]
    | succ i =>
      have shift : base + (i + 1) = (base + 1) + i := by omega
      have hne : base ≠ (base + 1) + i := by omega
      rw [shift]
      split_ifs with hv
      · rw [ih, List.getElem?_cons_succ]
      · simp only [Memory.read, if_neg hne, ih, List.getElem?_cons_succ]

/-- Every listed cell of a loaded memory is one of the loaded bytes, at its place. -/
theorem Memory.mem_ofDigits {base : Nat} {vs : List Byte} {cell : Host.Cell} (h : cell ∈ Memory.ofDigits base vs) :
    base ≤ cell.1 ∧ cell.1 < base + vs.length ∧ cell.2 ∈ vs := by
  induction vs generalizing base with
  | nil => simp [Memory.ofDigits] at h
  | cons v vs ih =>
    have tail : cell ∈ Memory.ofDigits (base + 1) vs →
        base ≤ cell.1 ∧ cell.1 < base + (v :: vs).length ∧ cell.2 ∈ v :: vs := by
      intro hc
      obtain ⟨h1, h2, h3⟩ := ih hc
      have hlen : (v :: vs).length = vs.length + 1 := rfl
      exact ⟨by omega, by omega, List.mem_cons_of_mem _ h3⟩
    simp only [Memory.ofDigits] at h
    split_ifs at h with hv
    · exact tail h
    · rcases List.mem_cons.1 h with rfl | h
      · simp
      · exact tail h

/-- Canonical memories that read the same at every address are equal. -/
theorem Memory.eq_of_reads {lo : Nat} {m m' : List Host.Cell} (hm : Memory.wfFrom lo m = true)
    (hm' : Memory.wfFrom lo m' = true) (h : ∀ addr, Memory.read m addr = Memory.read m' addr) : m = m' := by
  induction m generalizing lo m' with
  | nil =>
    cases m' with
    | nil => rfl
    | cons cell m' =>
      obtain ⟨_, hv, _⟩ := Memory.wfFrom_cons.1 hm'
      have := h cell.1
      simp [Memory.read] at this
      exact absurd this.symm hv
  | cons cell m ih =>
    obtain ⟨x, v⟩ := cell
    obtain ⟨hx, hv, hr⟩ := Memory.wfFrom_cons.1 hm
    cases m' with
    | nil =>
      have := h x
      simp [Memory.read] at this
      exact absurd this hv
    | cons cell' m' =>
      obtain ⟨y, w⟩ := cell'
      obtain ⟨hy, hw, hr'⟩ := Memory.wfFrom_cons.1 hm'
      have hxy : x = y := by
        rcases Nat.lt_trichotomy x y with hlt | heq | hgt
        · have hx' := h x
          have hb : Memory.read m' x = Memory.unlisted := Memory.read_below hr' (by omega)
          have hne : y ≠ x := by omega
          simp only [Memory.read, if_neg hne, hb] at hx'
          exact absurd (by simpa using hx') hv
        · exact heq
        · have hy' := h y
          have hb : Memory.read m y = Memory.unlisted := Memory.read_below hr (by omega)
          have hne : x ≠ y := by omega
          simp only [Memory.read, if_neg hne, hb] at hy'
          exact absurd (by simpa using hy'.symm) hw
      subst hxy
      have hvw : v = w := by simpa [Memory.read] using h x
      subst hvw
      congr 1
      refine ih hr hr' fun addr => ?_
      by_cases ha : addr < x + 1
      · rw [Memory.read_below hr ha, Memory.read_below hr' ha]
      · have hne : x ≠ addr := by omega
        simpa [Memory.read, hne] using h addr

end Sys2Proof.Machine
end

