-- ==== Sys2Proof/Laws/State.lean ====
section
/-! SUPPORT. One lemma per field per update of the state, so that no proof unfolds a record update. -/

namespace Sys2Proof.Machine

@[simp] theorem setIp_a (s : State) (t : Nat) : (setIp s t).a = s.a := rfl
@[simp] theorem setIp_b (s : State) (t : Nat) : (setIp s t).b = s.b := rfl
@[simp] theorem setIp_c (s : State) (t : Nat) : (setIp s t).c = s.c := rfl
@[simp] theorem setIp_ip (s : State) (t : Nat) : (setIp s t).ip = t := rfl
@[simp] theorem setIp_prog (s : State) (t : Nat) : (setIp s t).prog = s.prog := rfl
@[simp] theorem setIp_plen (s : State) (t : Nat) : (setIp s t).plen = s.plen := rfl
@[simp] theorem setIp_outSeq (s : State) (t : Nat) : (setIp s t).outSeq = s.outSeq := rfl
@[simp] theorem setIp_fault (s : State) (t : Nat) : (setIp s t).fault = s.fault := rfl
@[simp] theorem setIp_loaded (s : State) (t : Nat) : (setIp s t).loaded = s.loaded := rfl
@[simp] theorem setIp_params (s : State) (t : Nat) : (setIp s t).params = s.params := rfl

@[simp] theorem advance_a (s : State) : (advance s).a = s.a := rfl
@[simp] theorem advance_b (s : State) : (advance s).b = s.b := rfl
@[simp] theorem advance_c (s : State) : (advance s).c = s.c := rfl
@[simp] theorem advance_ip (s : State) : (advance s).ip = s.ip + 1 := rfl
@[simp] theorem advance_prog (s : State) : (advance s).prog = s.prog := rfl
@[simp] theorem advance_plen (s : State) : (advance s).plen = s.plen := rfl
@[simp] theorem advance_outSeq (s : State) : (advance s).outSeq = s.outSeq := rfl
@[simp] theorem advance_fault (s : State) : (advance s).fault = s.fault := rfl
@[simp] theorem advance_loaded (s : State) : (advance s).loaded = s.loaded := rfl
@[simp] theorem advance_params (s : State) : (advance s).params = s.params := rfl

@[simp] theorem emit_a (d : Digit) (s : State) : (emit d s).a = s.a := rfl
@[simp] theorem emit_b (d : Digit) (s : State) : (emit d s).b = s.b := rfl
@[simp] theorem emit_c (d : Digit) (s : State) : (emit d s).c = s.c := rfl
@[simp] theorem emit_ip (d : Digit) (s : State) : (emit d s).ip = s.ip := rfl
@[simp] theorem emit_prog (d : Digit) (s : State) : (emit d s).prog = s.prog := rfl
@[simp] theorem emit_plen (d : Digit) (s : State) : (emit d s).plen = s.plen := rfl
@[simp] theorem emit_outSeq (d : Digit) (s : State) : (emit d s).outSeq = s.outSeq ++ [d] := rfl
@[simp] theorem emit_fault (d : Digit) (s : State) : (emit d s).fault = s.fault := rfl
@[simp] theorem emit_loaded (d : Digit) (s : State) : (emit d s).loaded = s.loaded := rfl
@[simp] theorem emit_params (d : Digit) (s : State) : (emit d s).params = s.params := rfl

@[simp] theorem raiseFault_a (f : FaultStatus) (s : State) : (raiseFault f s).a = s.a := rfl
@[simp] theorem raiseFault_b (f : FaultStatus) (s : State) : (raiseFault f s).b = s.b := rfl
@[simp] theorem raiseFault_c (f : FaultStatus) (s : State) : (raiseFault f s).c = s.c := rfl
@[simp] theorem raiseFault_ip (f : FaultStatus) (s : State) : (raiseFault f s).ip = s.ip := rfl
@[simp] theorem raiseFault_prog (f : FaultStatus) (s : State) : (raiseFault f s).prog = s.prog := rfl
@[simp] theorem raiseFault_plen (f : FaultStatus) (s : State) : (raiseFault f s).plen = s.plen := rfl
@[simp] theorem raiseFault_outSeq (f : FaultStatus) (s : State) : (raiseFault f s).outSeq = s.outSeq := rfl
@[simp] theorem raiseFault_fault (f : FaultStatus) (s : State) : (raiseFault f s).fault = f := rfl
@[simp] theorem raiseFault_loaded (f : FaultStatus) (s : State) : (raiseFault f s).loaded = s.loaded := rfl
@[simp] theorem raiseFault_params (f : FaultStatus) (s : State) : (raiseFault f s).params = s.params := rfl

@[simp] theorem startRun_a (a b c : Int) (s : State) : (startRun a b c s).a = BitVec.ofInt 64 a := rfl
@[simp] theorem startRun_b (a b c : Int) (s : State) : (startRun a b c s).b = BitVec.ofInt 64 b := rfl
@[simp] theorem startRun_c (a b c : Int) (s : State) : (startRun a b c s).c = BitVec.ofInt 64 c := rfl
@[simp] theorem startRun_ip (a b c : Int) (s : State) : (startRun a b c s).ip = 0 := rfl
@[simp] theorem startRun_prog (a b c : Int) (s : State) : (startRun a b c s).prog = s.prog := rfl
@[simp] theorem startRun_plen (a b c : Int) (s : State) : (startRun a b c s).plen = s.plen := rfl
@[simp] theorem startRun_outSeq (a b c : Int) (s : State) : (startRun a b c s).outSeq = [] := rfl
@[simp] theorem startRun_fault (a b c : Int) (s : State) : (startRun a b c s).fault = .noFault := rfl
@[simp] theorem startRun_loaded (a b c : Int) (s : State) : (startRun a b c s).loaded = s.loaded := rfl
@[simp] theorem startRun_params (a b c : Int) (s : State) : (startRun a b c s).params = s.params := rfl

@[simp] theorem setProgram_a (digits : List Int) (s : State) : (setProgram digits s).a = s.a := rfl
@[simp] theorem setProgram_b (digits : List Int) (s : State) : (setProgram digits s).b = s.b := rfl
@[simp] theorem setProgram_c (digits : List Int) (s : State) : (setProgram digits s).c = s.c := rfl
@[simp] theorem setProgram_ip (digits : List Int) (s : State) : (setProgram digits s).ip = s.ip := rfl
@[simp] theorem setProgram_prog (digits : List Int) (s : State) : (setProgram digits s).prog = Memory.ofDigits 0 (digits.map (BitVec.ofInt 8)) := rfl
@[simp] theorem setProgram_plen (digits : List Int) (s : State) : (setProgram digits s).plen = digits.length / 2 := rfl
@[simp] theorem setProgram_outSeq (digits : List Int) (s : State) : (setProgram digits s).outSeq = s.outSeq := rfl
@[simp] theorem setProgram_fault (digits : List Int) (s : State) : (setProgram digits s).fault = s.fault := rfl
@[simp] theorem setProgram_loaded (digits : List Int) (s : State) : (setProgram digits s).loaded = true := rfl
@[simp] theorem setProgram_params (digits : List Int) (s : State) : (setProgram digits s).params = s.params := rfl

@[simp] theorem placeCells_a (s : State) (op k : Byte) : (placeCells s op k).a = s.a := rfl
@[simp] theorem placeCells_b (s : State) (op k : Byte) : (placeCells s op k).b = s.b := rfl
@[simp] theorem placeCells_c (s : State) (op k : Byte) : (placeCells s op k).c = s.c := rfl
@[simp] theorem placeCells_ip (s : State) (op k : Byte) : (placeCells s op k).ip = s.ip := rfl
@[simp] theorem placeCells_prog (s : State) (op k : Byte) : (placeCells s op k).prog = Memory.write (Memory.write s.prog (2 * s.ip) op) (2 * s.ip + 1) k := rfl
@[simp] theorem placeCells_plen (s : State) (op k : Byte) : (placeCells s op k).plen = max s.plen (s.ip + 1) := rfl
@[simp] theorem placeCells_outSeq (s : State) (op k : Byte) : (placeCells s op k).outSeq = s.outSeq := rfl
@[simp] theorem placeCells_fault (s : State) (op k : Byte) : (placeCells s op k).fault = .noFault := rfl
@[simp] theorem placeCells_loaded (s : State) (op k : Byte) : (placeCells s op k).loaded = true := rfl
@[simp] theorem placeCells_params (s : State) (op k : Byte) : (placeCells s op k).params = s.params := rfl

@[simp] theorem writeReg_a_a (s : State) (v : Word) : (writeReg s .a v).a = v := rfl
@[simp] theorem writeReg_a_b (s : State) (v : Word) : (writeReg s .a v).b = s.b := rfl
@[simp] theorem writeReg_a_c (s : State) (v : Word) : (writeReg s .a v).c = s.c := rfl
@[simp] theorem writeReg_b_a (s : State) (v : Word) : (writeReg s .b v).a = s.a := rfl
@[simp] theorem writeReg_b_b (s : State) (v : Word) : (writeReg s .b v).b = v := rfl
@[simp] theorem writeReg_b_c (s : State) (v : Word) : (writeReg s .b v).c = s.c := rfl
@[simp] theorem writeReg_c_a (s : State) (v : Word) : (writeReg s .c v).a = s.a := rfl
@[simp] theorem writeReg_c_b (s : State) (v : Word) : (writeReg s .c v).b = s.b := rfl
@[simp] theorem writeReg_c_c (s : State) (v : Word) : (writeReg s .c v).c = v := rfl

@[simp] theorem writeReg_ip (s : State) (r : Reg) (v : Word) : (writeReg s r v).ip = s.ip := by cases r <;> rfl
@[simp] theorem writeReg_prog (s : State) (r : Reg) (v : Word) : (writeReg s r v).prog = s.prog := by cases r <;> rfl
@[simp] theorem writeReg_plen (s : State) (r : Reg) (v : Word) : (writeReg s r v).plen = s.plen := by cases r <;> rfl
@[simp] theorem writeReg_outSeq (s : State) (r : Reg) (v : Word) : (writeReg s r v).outSeq = s.outSeq := by cases r <;> rfl
@[simp] theorem writeReg_fault (s : State) (r : Reg) (v : Word) : (writeReg s r v).fault = s.fault := by cases r <;> rfl
@[simp] theorem writeReg_loaded (s : State) (r : Reg) (v : Word) : (writeReg s r v).loaded = s.loaded := by cases r <;> rfl
@[simp] theorem writeReg_params (s : State) (r : Reg) (v : Word) : (writeReg s r v).params = s.params := by cases r <;> rfl

@[simp] theorem readReg_a (s : State) : readReg s .a = s.a := rfl
@[simp] theorem readReg_b (s : State) : readReg s .b = s.b := rfl
@[simp] theorem readReg_c (s : State) : readReg s .c = s.c := rfl

@[simp] theorem readReg_writeReg_same (s : State) (r : Reg) (v : Word) : readReg (writeReg s r v) r = v := by
  cases r <;> rfl

theorem readReg_writeReg_ne (s : State) {r q : Reg} (v : Word) (h : q ≠ r) :
    readReg (writeReg s r v) q = readReg s q := by
  cases r <;> cases q <;> first | rfl | exact absurd rfl h

@[simp] theorem readReg_setIp (s : State) (t : Nat) (r : Reg) : readReg (setIp s t) r = readReg s r := by cases r <;> rfl
@[simp] theorem readReg_advance (s : State) (r : Reg) : readReg (advance s) r = readReg s r := by cases r <;> rfl
@[simp] theorem readReg_emit (d : Digit) (s : State) (r : Reg) : readReg (emit d s) r = readReg s r := by cases r <;> rfl
@[simp] theorem readReg_raiseFault (f : FaultStatus) (s : State) (r : Reg) : readReg (raiseFault f s) r = readReg s r := by cases r <;> rfl
@[simp] theorem readReg_setProgram (digits : List Int) (s : State) (r : Reg) : readReg (setProgram digits s) r = readReg s r := by cases r <;> rfl
@[simp] theorem readReg_placeCells (s : State) (op k : Byte) (r : Reg) : readReg (placeCells s op k) r = readReg s r := by cases r <;> rfl

end Sys2Proof.Machine
end

