-- ==== Sys2Proof/Laws/Ops.lean ====
section
/-! SUPPORT. One lemma for each shared operation: what it can answer. -/

namespace Sys2Proof.Machine

theorem readCell_eq_some {s : State} {addr : Nat} {v : Byte} :
    readCell s addr = some v ↔ addr < 2 * s.plen ∧ Memory.read s.prog addr = v := by
  unfold readCell
  split <;> simp_all

theorem readCell_eq_none {s : State} {addr : Nat} : readCell s addr = none ↔ 2 * s.plen ≤ addr := by
  unfold readCell
  split <;> simp <;> omega

/-- Below L, the two cells of a slot exist. -/
theorem readPair_slot {s : State} {slot : Nat} (h : slot < s.plen) :
    readPair s (2 * slot) = some (Memory.read s.prog (2 * slot), Memory.read s.prog (2 * slot + 1)) := by
  have h0 := readCell_eq_some.2 ⟨(by omega : 2 * slot < 2 * s.plen), rfl⟩
  have h1 := readCell_eq_some.2 ⟨(by omega : 2 * slot + 1 < 2 * s.plen), rfl⟩
  simp only [readPair, h0, h1]

theorem readPair_eq_some {s : State} {addr : Nat} {p : Byte × Byte} :
    readPair s addr = some p ↔
      addr + 1 < 2 * s.plen ∧ Memory.read s.prog addr = p.1 ∧ Memory.read s.prog (addr + 1) = p.2 := by
  unfold readPair
  rcases h0 : readCell s addr with _ | v
  · have := readCell_eq_none.1 h0
    simp
    omega
  · rcases h1 : readCell s (addr + 1) with _ | w
    · have := readCell_eq_none.1 h1
      simp
      omega
    · obtain ⟨_, rfl⟩ := readCell_eq_some.1 h0
      obtain ⟨hlt, rfl⟩ := readCell_eq_some.1 h1
      simp [Prod.ext_iff, hlt]

theorem rawCells_length (s : State) : (rawCells s).length = 2 * s.plen := by
  simp [rawCells]

/-- The raw digit stream and the cell reads are the same view of program memory (20 R41, R42). -/
theorem readCell_eq_rawCells (s : State) (addr : Nat) : readCell s addr = (rawCells s)[addr]? := by
  unfold readCell rawCells
  split
  · next h => simp [h]
  · next h =>
    simp
    omega

/-- Every operand digit is one of eight. -/
theorem digit_cases (k : Digit) : k = 0 ∨ k = 1 ∨ k = 2 ∨ k = 3 ∨ k = 4 ∨ k = 5 ∨ k = 6 ∨ k = 7 := by
  revert k
  decide

theorem comboSource_eq_none {k : Digit} : comboSource k = none ↔ k = 7 := by
  revert k
  decide

/-- Only combo code 7 has no value (30 R65). -/
theorem combo_eq_none {s : State} {k : Digit} : combo s k = none ↔ k = 7 := by
  simp [combo, comboSource_eq_none]

theorem combo_of_ne {s : State} {k : Digit} (h : k ≠ 7) : ∃ v, combo s k = some v :=
  Option.ne_none_iff_exists'.1 (mt combo_eq_none.1 h)

@[simp] theorem withCombo_seven (s : State) (f : Word → Host.Outcome State Fault Refusal) :
    withCombo 7 s f = .next (raiseFault .invalidOperand s) := rfl

theorem withCombo_of_some {s : State} {k : Digit} {v : Word} (h : combo s k = some v)
    (f : Word → Host.Outcome State Fault Refusal) : withCombo k s f = f v := by
  simp [withCombo, h]

/-- A combo-kind instruction with a next state either faulted on code 7 or ran on the value. -/
theorem withCombo_next {s t : State} {k : Digit} {f : Word → Host.Outcome State Fault Refusal}
    (h : withCombo k s f = .next t) :
    (k = 7 ∧ t = raiseFault .invalidOperand s) ∨ (k ≠ 7 ∧ ∃ v, combo s k = some v ∧ f v = .next t) := by
  by_cases hk : k = 7
  · subst hk
    simp only [withCombo_seven, Host.Outcome.next.injEq] at h
    exact .inl ⟨rfl, h.symm⟩
  · obtain ⟨v, hv⟩ := combo_of_ne (s := s) hk
    exact .inr ⟨hk, v, hv, by rwa [withCombo_of_some hv] at h⟩

/-- `shr64` is floor division by the power of two, at every count (41 R100). -/
theorem shr64_toNat (x v : Word) : (shr64 x v).toNat = x.toNat / 2 ^ v.toNat := by
  unfold shr64
  split
  · next h =>
    have hx : x.toNat < 2 ^ v.toNat := x.isLt.trans_le (Nat.pow_le_pow_right (by decide) h)
    simp [Nat.div_eq_of_lt hx]
  · simp [Nat.shiftRight_eq_div_pow]

/-- `v mod 8` as a register value (42 R111). -/
theorem zext64_lowDigit_toNat (v : Word) : (zext64 (lowDigit v)).toNat = v.toNat % 8 := by
  simp [zext64, lowDigit]
  omega

theorem lowDigit_toNat (v : Word) : (lowDigit v).toNat = v.toNat % 8 := by
  simp [lowDigit]

end Sys2Proof.Machine
end

