-- ==== Sys2Proof/Laws/Exec.lean ====
section
/-! SUPPORT. What one instruction and one step can do, said once: proofs about all instructions or
all steps cite these and unfold neither. -/

namespace Sys2Proof.Machine

/-- Everything an instruction that answers a next state can have done. -/
theorem exec_next_cases {i : Instr} {s t : State} (h : exec i s = .next t) :
    (i.wellFormed = false ∧ t = raiseFault .invalidOperand s) ∨
    (i.wellFormed = true ∧
      ((∃ r v, destReg i = some r ∧ t = advance (writeReg s r v)) ∨
       (∃ k d, i = .out k ∧ hasRoom s = true ∧ t = advance (emit d s)) ∨
       (∃ k, i = .jnz k ∧ s.a ≠ 0 ∧ t = setIp s (jumpTarget k)) ∨
       (∃ k, i = .jnz k ∧ s.a = 0 ∧ t = advance s))) := by
  cases i with
  | adv k =>
    rcases withCombo_next h with ⟨rfl, rfl⟩ | ⟨hk, v, _, hv⟩
    · exact .inl ⟨rfl, rfl⟩
    · cases hv
      exact .inr ⟨by simpa [Instr.wellFormed] using hk, .inl ⟨.a, _, rfl, rfl⟩⟩
  | bdv k =>
    rcases withCombo_next h with ⟨rfl, rfl⟩ | ⟨hk, v, _, hv⟩
    · exact .inl ⟨rfl, rfl⟩
    · cases hv
      exact .inr ⟨by simpa [Instr.wellFormed] using hk, .inl ⟨.b, _, rfl, rfl⟩⟩
  | cdv k =>
    rcases withCombo_next h with ⟨rfl, rfl⟩ | ⟨hk, v, _, hv⟩
    · exact .inl ⟨rfl, rfl⟩
    · cases hv
      exact .inr ⟨by simpa [Instr.wellFormed] using hk, .inl ⟨.c, _, rfl, rfl⟩⟩
  | bst k =>
    rcases withCombo_next h with ⟨rfl, rfl⟩ | ⟨hk, v, _, hv⟩
    · exact .inl ⟨rfl, rfl⟩
    · cases hv
      exact .inr ⟨by simpa [Instr.wellFormed] using hk, .inl ⟨.b, _, rfl, rfl⟩⟩
  | bxl k =>
    cases h
    exact .inr ⟨rfl, .inl ⟨.b, _, rfl, rfl⟩⟩
  | bxc k =>
    cases h
    exact .inr ⟨rfl, .inl ⟨.b, _, rfl, rfl⟩⟩
  | out k =>
    rcases withCombo_next h with ⟨rfl, rfl⟩ | ⟨hk, v, _, hv⟩
    · exact .inl ⟨rfl, rfl⟩
    · split at hv
      · next hroom =>
        cases hv
        exact .inr ⟨by simpa [Instr.wellFormed] using hk, .inr (.inl ⟨k, _, rfl, hroom, rfl⟩)⟩
      · cases hv
  | jnz k =>
    cases h
    refine .inr ⟨rfl, .inr (.inr ?_)⟩
    by_cases ha : s.a = 0
    · exact .inr ⟨k, rfl, ha, by simp [aNonZero, ha]⟩
    · exact .inl ⟨k, rfl, ha, by simp [aNonZero, show ¬ s.a = 0#64 from ha]⟩

/-- The fetch of a core that can step: the decoding of the two cells at IP (40 R82, R83). -/
theorem fetchInstr_of_canStep {s : State} (h : CanStep s) :
    fetchInstr s =
      match decodeCells (Memory.read s.prog (2 * s.ip)) (Memory.read s.prog (2 * s.ip + 1)) with
      | .error e => .error (.next (raiseFault (faultOfDecode e) s))
      | .ok i => .ok i := by
  obtain ⟨hl, hf, hip⟩ := h
  cases hd : decodeCells (Memory.read s.prog (2 * s.ip)) (Memory.read s.prog (2 * s.ip + 1)) <;>
    simp only [fetchInstr, hl, runState, hf, hip, if_true, readPair_slot hip, hd]

/-- A step with a next state: the core could step, and it either took the fault its decode raised or
ran the decoded instruction. -/
theorem step_next_cases {s t : State} (h : step s = .next t) :
    CanStep s ∧
      ((∃ e, decodeCells (Memory.read s.prog (2 * s.ip)) (Memory.read s.prog (2 * s.ip + 1)) = .error e ∧
          t = raiseFault (faultOfDecode e) s) ∨
       (∃ i, decodeCells (Memory.read s.prog (2 * s.ip)) (Memory.read s.prog (2 * s.ip + 1)) = .ok i ∧
          exec i s = .next t)) := by
  have hcan : CanStep s := by
    by_cases hl : s.loaded = true
    · by_cases hf : s.fault = .noFault
      · by_cases hip : s.ip < s.plen
        · exact ⟨hl, hf, hip⟩
        · simp [step, fetchInstr, runState, hl, hf, hip] at h
      · simp [step, fetchInstr, runState, hl, hf] at h
    · simp [step, fetchInstr, hl] at h
  refine ⟨hcan, ?_⟩
  rw [step, fetchInstr_of_canStep hcan] at h
  rcases hd : decodeCells (Memory.read s.prog (2 * s.ip)) (Memory.read s.prog (2 * s.ip + 1)) with e | i
  · simp only [hd, Host.Outcome.next.injEq] at h
    exact .inl ⟨e, rfl, h.symm⟩
  · exact .inr ⟨i, rfl, by simpa only [hd] using h⟩

/-- `runState` on a loaded core says whether it can step. -/
theorem runState_eq_running {s : State} : runState s = .running ↔ s.fault = .noFault ∧ s.ip < s.plen := by
  unfold runState
  by_cases hf : s.fault = .noFault <;> by_cases hip : s.ip < s.plen <;> simp [hf, hip]

theorem runState_eq_halted {s : State} : runState s = .halted ↔ s.fault = .noFault ∧ s.plen ≤ s.ip := by
  unfold runState
  split_ifs with hf hip <;> simp [hf] <;> omega

theorem runState_eq_faulted {s : State} : runState s = .faulted ↔ s.fault ≠ .noFault := by
  unfold runState
  split_ifs with hf <;> simp [hf]

end Sys2Proof.Machine
end

