-- ==== Sys2Proof/Laws/PerInstr.lean ====
section
/-! SUPPORT. A family of facts about every instruction as syntax, one lemma per constructor: its
encoding lies in its row of spec/opcode_table.json. -/

namespace Sys2Proof.Laws.EncodingInTableRow

/-- The match value of the instruction's row (mask 56, that is W[5:3]). -/
def rowMatch : Instr → Nat
  | .adv _ => 0
  | .bxl _ => 8
  | .bst _ => 16
  | .jnz _ => 24
  | .bxc _ => 32
  | .out _ => 40
  | .bdv _ => 48
  | .cdv _ => 56

/-- Under the mask the word is the row's match value, and what the mask leaves is the operand. -/
def Statement (i : Instr) : Prop :=
  (encodeWord i).toNat &&& 56 = rowMatch i ∧ (encodeWord i).toNat &&& 7 = i.operand.toNat

theorem adv : ∀ k, Statement (.adv k) := by unfold Statement; decide
theorem bxl : ∀ k, Statement (.bxl k) := by unfold Statement; decide
theorem bst : ∀ k, Statement (.bst k) := by unfold Statement; decide
theorem jnz : ∀ k, Statement (.jnz k) := by unfold Statement; decide
theorem bxc : ∀ k, Statement (.bxc k) := by unfold Statement; decide
theorem out : ∀ k, Statement (.out k) := by unfold Statement; decide
theorem bdv : ∀ k, Statement (.bdv k) := by unfold Statement; decide
theorem cdv : ∀ k, Statement (.cdv k) := by unfold Statement; decide

end Sys2Proof.Laws.EncodingInTableRow
end

