-- ==== Sys2Proof/Tests/Slice0.lean ====
section
/-! SUPPORT. The model's own tests. Expected results come from spec/30_encoding.md (words written out bit
by bit) and spec/95_test_vectors.md (the vector is named at each test); the witnesses at the end meet the
hypotheses of the statements in Certificates/Slice0/Obligations.lean. -/

namespace Sys2Proof.Tests

open Machine Spec

/-- The core loaded with a program, by LOAD, from the state before the first LOAD. -/
def core0 (digits : List Int) (a b c : Int) : State := (load digits a b c State.reset).2

/-- The same with an output sequence of `n` zeros and the capacity `cap`. -/
def filled (cap n : Nat) (digits : List Int) : State :=
  { core0 digits 1 1 1 with outSeq := List.replicate n 0, params := ⟨some cap, none, false⟩ }

/-- A loaded core that holds two bytes, digits or not, in slot 0. -/
def wide (op k : Byte) : State := placeCells State.reset op k

/-- What a test looks at in the state after one step. -/
structure Seen where
  a : Nat
  b : Nat
  c : Nat
  ip : Nat
  fault : FaultStatus
  out : List Digit
  deriving DecidableEq, Repr

/-- What a test sees of the outcome of one step. -/
def seen : Host.Outcome State Fault Refusal → Option Seen
  | .next t => some ⟨t.a.toNat, t.b.toNat, t.c.toNat, t.ip, t.fault, t.outSeq⟩
  | _ => none

/-! ## WellFormed: each check refuses an ill-formed term -/

theorem test_illformed_adv : (Instr.adv 7).wellFormed = false := by decide
theorem test_illformed_bst : (Instr.bst 7).wellFormed = false := by decide
theorem test_illformed_out : (Instr.out 7).wellFormed = false := by decide
theorem test_illformed_bdv : (Instr.bdv 7).wellFormed = false := by decide
theorem test_illformed_cdv : (Instr.cdv 7).wellFormed = false := by decide
/-- 30 R63: a literal or ignored operand 7 is legal. -/
theorem test_wellformed_seven :
    (Instr.bxl 7).wellFormed = true ∧ (Instr.jnz 7).wellFormed = true ∧ (Instr.bxc 7).wellFormed = true := by decide

/-! ## Decoding: words written out from 30 R61 and R62 -/

theorem test_decode_adv : decodeWord 0b000001 = .adv 1 := by decide
theorem test_decode_bxl : decodeWord 0b001111 = .bxl 7 := by decide
theorem test_decode_bst : decodeWord 0b010110 = .bst 6 := by decide
theorem test_decode_jnz : decodeWord 0b011100 = .jnz 4 := by decide
theorem test_decode_bxc : decodeWord 0b100001 = .bxc 1 := by decide
theorem test_decode_out : decodeWord 0b101101 = .out 5 := by decide
theorem test_decode_bdv : decodeWord 0b110010 = .bdv 2 := by decide
theorem test_decode_cdv : decodeWord 0b111101 = .cdv 5 := by decide
/-- 60 R143: the opcode cell is checked first, the operand cell for every opcode. -/
theorem test_decode_wide :
    decodeCells 8 9 = .error (.invalidOpcode 8) ∧ decodeCells 4 8 = .error (.invalidOperand 8) := ⟨rfl, rfl⟩
/-- A row's word from reset: placed, it is what the first step runs (log entry 7). -/
theorem test_placed_word_runs :
    seen (step (State.reset.withFetchWord 8 0b101011)) = some ⟨0, 0, 0, 1, .noFault, [3]⟩ := by decide

/-! ## The instructions: one step of a program of 95 section 2 -/

/-- SH8: adv 6 with A = 2^64 − 1, C = 63. -/
theorem test_adv_count63 :
    seen (step (core0 [0, 6] 18446744073709551615 0 63)) = some ⟨1, 0, 63, 1, .noFault, []⟩ := by decide
/-- SH7: adv 5 with A = 2^64 − 1, B = 64: a count of 64 gives 0. -/
theorem test_adv_count64 :
    seen (step (core0 [0, 5] 18446744073709551615 64 0)) = some ⟨0, 64, 0, 1, .noFault, []⟩ := by decide
/-- SH13: bdv 5 with A = 2024, B = 3: the old B is the count. -/
theorem test_bdv_source_is_destination :
    seen (step (core0 [6, 5] 2024 3 0)) = some ⟨2024, 253, 0, 1, .noFault, []⟩ := by decide
/-- SH17: bdv 7 faults and changes FAULT alone. -/
theorem test_bdv_seven :
    seen (step (core0 [6, 7] 8 8 8)) = some ⟨8, 8, 8, 0, .invalidOperand, []⟩ := by decide
/-- SH21: cdv 5 with A = 2024, B = 3, C = 9. -/
theorem test_cdv_writes_c :
    seen (step (core0 [7, 5] 2024 3 9)) = some ⟨2024, 3, 253, 1, .noFault, []⟩ := by decide
/-- SH20: cdv 6 with A = 2^64 − 1, C = 64. -/
theorem test_cdv_count64 :
    seen (step (core0 [7, 6] 18446744073709551615 0 64)) = some ⟨18446744073709551615, 0, 0, 1, .noFault, []⟩ := by
  decide
/-- X1 (S4): bxl 7 with B = 29. -/
theorem test_bxl_seven : seen (step (core0 [1, 7] 0 29 0)) = some ⟨0, 26, 0, 1, .noFault, []⟩ := by decide
/-- X3: bxl 5 with B = 2^64 − 1. -/
theorem test_bxl_top :
    seen (step (core0 [1, 5] 0 18446744073709551615 0)) = some ⟨0, 18446744073709551610, 0, 1, .noFault, []⟩ := by
  decide
/-- X5 (S1): bst 6 with C = 9. -/
theorem test_bst_combo : seen (step (core0 [2, 6] 0 0 9)) = some ⟨0, 1, 9, 1, .noFault, []⟩ := by decide
/-- X15: bst 7 faults. -/
theorem test_bst_seven : seen (step (core0 [2, 7] 1 2 3)) = some ⟨1, 2, 3, 0, .invalidOperand, []⟩ := by decide
/-- X7: bxc 7 with B = 2024, C = 43690: no fault, the operand is ignored. -/
theorem test_bxc_ignores_seven :
    seen (step (core0 [4, 7] 0 2024 43690)) = some ⟨0, 44354, 43690, 1, .noFault, []⟩ := by decide
/-- X8: bxc 3 with B = C = 5. -/
theorem test_bxc_equal : seen (step (core0 [4, 3] 0 5 5)) = some ⟨0, 0, 5, 1, .noFault, []⟩ := by decide
/-- J3: jnz 5 with A = 1 goes to slot 2. -/
theorem test_jnz_odd_target :
    seen (step (core0 [3, 5, 5, 1, 5, 2, 5, 3] 1 0 0)) = some ⟨1, 0, 0, 2, .noFault, []⟩ := by decide
/-- J5: jnz 7 with A = 0 falls through. -/
theorem test_jnz_falls_through : seen (step (core0 [3, 7] 0 0 0)) = some ⟨0, 0, 0, 1, .noFault, []⟩ := by decide
/-- O4: out 5 with B = 2^64 − 1. -/
theorem test_out_top :
    seen (step (core0 [5, 5] 0 18446744073709551615 0)) =
      some ⟨0, 18446744073709551615, 0, 1, .noFault, [7]⟩ := by decide
/-- O6: out 7 faults and emits nothing. -/
theorem test_out_seven : seen (step (core0 [5, 7] 1 1 1)) = some ⟨1, 1, 1, 0, .invalidOperand, []⟩ := by decide

/-! ## The host's operations: 95 sections 2.6 and 2.7 -/

/-- LD1 to LD4. -/
theorem test_load_malformed :
    (load [2, 6, 1] 0 0 0 State.reset).1 = .malformedInput ∧ (load [8, 0] 0 0 0 State.reset).1 = .malformedInput ∧
    (load [5, 9] 0 0 0 State.reset).1 = .malformedInput ∧
    (load [0, 1] 18446744073709551616 0 0 State.reset).1 = .malformedInput := by decide
/-- LD5 to LD7. -/
theorem test_load_accepted :
    (load [] 0 0 0 State.reset).1 = .ok ∧ (load [0, 7] 0 0 0 State.reset).1 = .ok ∧
    (load [0, 7] 0 0 0 { State.reset with params := ⟨none, none, true⟩ }).1 = .invalidOperand ∧
    (load [1, 7] 0 0 0 { State.reset with params := ⟨none, none, true⟩ }).1 = .ok := by decide
/-- RM1, its first call. -/
theorem test_next_output :
    (command (.runUntilNextOutput 5) (core0 [5, 0, 5, 1, 5, 4] 10 0 0)).1 = .yield 0 ∧
    (command (.runUntilNextOutput 5) (core0 [5, 0, 5, 1, 5, 4] 10 0 0)).2.ip = 1 := by decide
/-- RM4: STEP on `0,7`, twice. -/
theorem test_step_fault_twice :
    (command .step (core0 [0, 7] 5 5 5)).1 = .fault .invalidOperand ∧
    (command .step (command .step (core0 [0, 7] 5 5 5)).2).1 = .fault .invalidOperand := by decide
/-- S2 (P of 95): RUN_TO_HALT on `5,0,5,1,5,4` with A = 10. -/
theorem test_run_to_halt :
    (command (.runToHalt 4) (core0 [5, 0, 5, 1, 5, 4] 10 0 0)).1 = .done [0, 1, 2] := by decide
/-- The codes of 60 R145. -/
theorem test_codes :
    loadCode .ok = 0 ∧ loadCode .malformedInput = 1 ∧ loadCode .invalidOperand = 2 ∧ faultCode .noFault = 0 ∧
    faultCode .invalidOpcode = 1 ∧ faultCode .invalidOperand = 2 := by decide
/-- 44 R134: `[4,2,5]` is reported as the text `4,2,5`. -/
theorem test_format_output : formatOutput [4, 2, 5] = ['4', ',', '2', ',', '5'] := by decide
/-- 70 R173: a register line, and a digit line that ends in a digit 8. -/
theorem test_parse_lines :
    registerLine 'A' ['R', 'e', 'g', 'i', 's', 't', 'e', 'r', ' ', 'A', ':', ' ', '2', '0', '\n'] = some (20, []) ∧
    digitLine ['0', ',', '3'] = some [0, 3] ∧ digitLine ['0', ',', '8'] = none := by decide

/-! ## Witnesses: the hypotheses of the statements can be met -/

theorem good_core0 : GoodState (core0 [5, 5, 0, 7] 1 2 3) :=
  ⟨by decide, by decide, by decide, by decide, by decide, by decide⟩

theorem test_witness_DecodeStream : decodeStream [1, 7, 4, 0] = some [.bxl 7, .bxc 0] := by decide

/-- Both clauses at their least and greatest cells. -/
theorem test_witness_WideCellsFaultInOrder :
    (CanStep (wide 8 0) ∧ readPair (wide 8 0) 0 = some (8, 0)) ∧
    (CanStep (wide 255 255) ∧ readPair (wide 255 255) 0 = some (255, 255)) ∧
    (CanStep (wide 7 8) ∧ readPair (wide 7 8) 0 = some (7, 8)) ∧
    (CanStep (wide 0 255) ∧ readPair (wide 0 255) 0 = some (0, 255)) := by
  unfold CanStep; decide

theorem test_witness_StepRunsDecodedInstruction :
    CanStep (core0 [5, 5, 0, 7] 1 2 3) ∧
    readPair (core0 [5, 5, 0, 7] 1 2 3) (2 * (core0 [5, 5, 0, 7] 1 2 3).ip) = some (5, 5) ∧
    decodeCells 5 5 = .ok (.out 5) :=
  ⟨by unfold CanStep; decide, by decide, rfl⟩

theorem test_witness_StepRunsPackedWord :
    GoodState (core0 [5, 5, 0, 7] 1 2 3) ∧ CanStep (core0 [5, 5, 0, 7] 1 2 3) ∧
    readWord6 (core0 [5, 5, 0, 7] 1 2 3) (2 * (core0 [5, 5, 0, 7] 1 2 3).ip) = some 0b101101 :=
  ⟨good_core0, by unfold CanStep; decide, by decide⟩

theorem test_witness_PlacedWordIsWhatStepRuns :
    Memory.wf State.reset.prog = true ∧ decodeTableWord 8 0b111111 = some (.cdv 7) := by decide

theorem test_witness_StepIsThePseudocode :
    GoodState (core0 [5, 5, 0, 7] 1 2 3) ∧ CanStep (core0 [5, 5, 0, 7] 1 2 3) ∧
    hasRoom (core0 [5, 5, 0, 7] 1 2 3) = true :=
  ⟨good_core0, by unfold CanStep; decide, by decide⟩

/-- A step; a Halted core at IP = L; a Faulted one. -/
theorem test_witness_NoStepUnlessRunning :
    (∃ t, step (core0 [1, 0] 0 0 0) = .next t) ∧
    ((core0 [] 0 0 0).loaded = true ∧ runState (core0 [] 0 0 0) = .halted) ∧
    ((wide 9 0).loaded = true ∧ runState (raiseFault .invalidOpcode (wide 9 0)) = .faulted) :=
  ⟨⟨_, rfl⟩, by decide, by decide⟩

/-- A core that can step, and one that can and has OUT_SEQ filled to a capacity of 0 and of 2. -/
theorem test_witness_RunningCoreStepsOrIsFull :
    (GoodState (filled 0 0 [5, 1]) ∧ CanStep (filled 0 0 [5, 1])) ∧
    (GoodState (filled 2 2 [5, 1]) ∧ CanStep (filled 2 2 [5, 1])) ∧
    (GoodState (filled 2 1 [5, 1]) ∧ CanStep (filled 2 1 [5, 1])) :=
  ⟨⟨⟨by decide, by decide, by decide, by decide, by decide, by decide⟩, by unfold CanStep; decide⟩,
   ⟨⟨by decide, by decide, by decide, by decide, by decide, by decide⟩, by unfold CanStep; decide⟩,
   ⟨⟨by decide, by decide, by decide, by decide, by decide, by decide⟩, by unfold CanStep; decide⟩⟩

theorem test_witness_UnloadedCoreRefuses :
    State.reset.loaded = false ∧ (load [8] 0 0 0 State.reset).1 ≠ .ok := by decide

/-- A state that meets the invariant and steps: onward, by a jump to the last slot, and into a fault. -/
theorem test_witness_StepKeepsInvariant :
    GoodState (core0 [5, 5, 0, 7] 1 2 3) ∧ (∃ t, step (core0 [5, 5, 0, 7] 1 2 3) = .next t) ∧
    (∃ t, step (core0 [3, 7] 1 0 0) = .next t ∧ t.ip = 3) :=
  ⟨good_core0, ⟨_, rfl⟩, ⟨_, rfl, rfl⟩⟩

theorem test_witness_CommandKeepsInvariant : GoodState (core0 [5, 5, 0, 7] 1 2 3) := good_core0

/-- An opcode cell of 8; a list with a digit below 0 and one with a digit above 7; a LOAD that succeeds. -/
theorem test_witness_InvalidOpcodeUnreachable :
    (CanStep (wide 8 3) ∧ readPair (wide 8 3) (2 * (wide 8 3).ip) = some (8, 3)) ∧
    (∃ d ∈ ([0, -1] : List Int), d < 0 ∨ 7 < d) ∧ (∃ d ∈ ([8, 0] : List Int), d < 0 ∨ 7 < d) ∧
    (load [7, 7] 0 0 0 State.reset).1 = .ok := by
  unfold CanStep; decide

theorem test_witness_PrecheckedCoreNeverFaults :
    (load [1, 7] 0 0 0 { State.reset with params := ⟨none, none, true⟩ }).1 = .ok := by decide

/-- A decodable slot holds a legal instruction, and the core steps. -/
theorem test_witness_LegalProgramNeverFaults :
    GoodState (core0 [1, 7] 0 0 0) ∧ AllLegal (core0 [1, 7] 0 0 0) ∧
    (∃ t, step (core0 [1, 7] 0 0 0) = .next t) := by
  refine ⟨⟨by decide, by decide, by decide, by decide, by decide, by decide⟩, ?_, _, rfl⟩
  intro slot hslot i hi
  have h0 : slot = 0 := Nat.lt_one_iff.1 hslot
  subst h0
  have hdec : decodeCells (Memory.read (core0 [1, 7] 0 0 0).prog (2 * 0))
      (Memory.read (core0 [1, 7] 0 0 0).prog (2 * 0 + 1)) = .ok (.bxl 7) := rfl
  cases hdec.symm.trans hi
  rfl

theorem test_witness_ShiftFamilyDivides : (0 : Digit) ≠ 7 ∧ (6 : Digit) ≠ 7 := by decide

/-- bxl: the literal 0, and a second bxl after the first. -/
theorem test_witness_BxlXorsLiteral : ∃ u, exec (.bxl 7) (core0 [] 0 29 0) = .next u := ⟨_, rfl⟩

/-- bst: each clause's operands, at their bounds. -/
theorem test_witness_BstTakesLowDigit :
    ((0 : Digit) ≠ 7 ∧ (0 : Digit).toNat ≤ 3 ∧ (0 : Digit) ≠ 5) ∧ ((3 : Digit) ≠ 7 ∧ (3 : Digit).toNat ≤ 3) ∧
    ((5 : Digit) ≠ 7 ∧ (5 : Digit) = 5) ∧ ((6 : Digit) ≠ 7 ∧ (6 : Digit) ≠ 5) := by decide

/-- bxc: C = 0, and B = C. -/
theorem test_witness_BxcXorsC : (core0 [] 0 7 0).c = 0 ∧ (core0 [] 0 7 7).b = (core0 [] 0 7 7).c := by decide

/-- jnz: A = 1 with the target at and past L, and A = 0. -/
theorem test_witness_JnzBranchesOnA :
    ((core0 [3, 7] 1 0 0).a ≠ 0 ∧ (core0 [3, 7] 1 0 0).fault = .noFault ∧
      (core0 [3, 7] 1 0 0).plen ≤ (2 : Digit).toNat / 2 ∧ (core0 [3, 7] 1 0 0).plen ≤ (7 : Digit).toNat / 2) ∧
    (core0 [3, 7] 0 0 0).a = 0 := by decide

/-- out: room with one digit left, and a step that fetches it. -/
theorem test_witness_OutEmitsLowDigit :
    hasRoom (filled 2 1 [5, 4]) = true ∧ hasRoom (core0 [5, 3] 1 1 1) = true ∧ CanStep (filled 2 1 [5, 4]) ∧
    readPair (filled 2 1 [5, 4]) (2 * (filled 2 1 [5, 4]).ip) = some (5, (4 : Digit).setWidth 8) ∧
    (0 : Digit).toNat ≤ 3 ∧ (3 : Digit).toNat ≤ 3 := by
  unfold CanStep; decide

/-- out: OUT_SEQ full at the capacities 0 and 2. -/
theorem test_witness_OutputFullIsStuck :
    hasRoom (filled 0 0 [5, 0]) = false ∧ hasRoom (filled 2 2 [5, 6]) = false ∧ CanStep (filled 2 2 [5, 6]) ∧
    readPair (filled 2 2 [5, 6]) (2 * (filled 2 2 [5, 6]).ip) = some (5, (6 : Digit).setWidth 8) := by
  unfold CanStep; decide

/-- out 7: OUT_SEQ full at the capacities 0 and 2. -/
theorem test_witness_OutSevenFaultsWhenFull :
    hasRoom (filled 0 0 [5, 7]) = false ∧ hasRoom (filled 2 2 [5, 7]) = false ∧ CanStep (filled 2 2 [5, 7]) ∧
    readPair (filled 2 2 [5, 7]) (2 * (filled 2 2 [5, 7]).ip) = some (5, 7) := by
  unfold CanStep; decide

/-- A combo-kind instruction with operand 7, an `out` with room, and arguments LOAD accepts with 7 in an
operand cell. -/
theorem test_witness_ComboOperandTable :
    (operandKind (.cdv 7) = .combo ∧ (Instr.cdv 7).operand = 7) ∧
    (operandKind (.out 7) = .combo ∧ (Instr.out 7).operand = 7 ∧ hasRoom (filled 2 1 [5, 7]) = true) ∧
    State.reset.params.precheckAtLoad = false ∧
    GoodInput State.reset.params [0, 7] 0 18446744073709551615 0 :=
  ⟨by decide, by decide, by decide, by decide, by decide, by decide, by decide, by decide, by decide⟩

theorem test_witness_LegalInstructionsComplete :
    (Instr.out 6).wellFormed = true ∧ hasRoom (core0 [5, 6] 1 1 1) = true ∧ (Instr.jnz 7).wellFormed = true := by
  decide

/-- A next state of a register, an output, a jump and a faulting instruction. -/
theorem test_witness_ExecFrame :
    (∃ t, exec (.adv 1) (core0 [] 4 4 4) = .next t) ∧ (∃ t, exec (.out 1) (core0 [] 4 4 4) = .next t) ∧
    (∃ t, exec (.jnz 1) (core0 [] 4 4 4) = .next t) ∧ (∃ t, exec (.cdv 7) (core0 [] 4 4 4) = .next t) :=
  ⟨⟨_, rfl⟩, ⟨_, rfl⟩, ⟨_, rfl⟩, ⟨_, rfl⟩⟩

/-- A register that is not read, written by the instruction and not. -/
theorem test_witness_UnreadRegistersDoNotMatter :
    (readsReg (.bst 4) .b = false ∧ ∃ t, exec (.bst 4) (core0 [] 4 4 4) = .next t) ∧
    (readsReg (.adv 5) .c = false ∧ ∃ t, exec (.adv 5) (core0 [] 4 4 4) = .next t) :=
  ⟨⟨by decide, _, rfl⟩, ⟨by decide, _, rfl⟩⟩

theorem test_witness_AdvanceUnlessTakenJump :
    (∃ t, exec (.jnz 7) (core0 [3, 7] 1 0 0) = .next t ∧ t.fault = .noFault) ∧
    (∃ t, exec (.jnz 7) (core0 [3, 7] 0 0 0) = .next t ∧ t.fault = .noFault) ∧
    (∃ t, exec (.bxc 7) (core0 [4, 7] 0 0 0) = .next t ∧ t.fault = .noFault) :=
  ⟨⟨_, rfl, rfl⟩, ⟨_, rfl, rfl⟩, ⟨_, rfl, rfl⟩⟩

theorem test_witness_IllegalWordsFault :
    (core0 [] 0 0 0).fault = .noFault ∧ (Instr.bdv 7).wellFormed = false ∧
    ((Instr.out 7).wellFormed = false ∧ hasRoom (core0 [] 0 0 0) = true) ∧ (Instr.bdv 6).wellFormed = true ∧
    ∃ t, exec (.bdv 6) (core0 [] 0 0 0) = .next t :=
  ⟨rfl, rfl, ⟨rfl, rfl⟩, rfl, _, rfl⟩

theorem test_witness_FaultsArePreciseAndFinal :
    ∃ t, step (core0 [0, 7] 1 2 3) = .next t ∧ t.fault ≠ .noFault := ⟨_, rfl, by decide⟩

theorem test_witness_OnlyLoadWritesProgram :
    (∃ t, exec (.out 0) (core0 [5, 0] 0 0 0) = .next t) ∧ isLoad (.reinit 1 2 3) = false := ⟨⟨_, rfl⟩, rfl⟩

/-- A LOAD that succeeds, and operations that are no LOAD. -/
theorem test_witness_RawDigitsReadBack :
    (load [0, 7, 4, 1] 0 0 0 State.reset).1 = .ok ∧
    (∀ cmd ∈ [Command.step, .reinit 1 1 1, .runToHalt 9], isLoad cmd = false) := by decide

/-- The first and the last slot. -/
theorem test_witness_SlotHoldsOpcodeThenOperand :
    (load [0, 7, 4, 1] 0 0 0 State.reset).1 = .ok ∧ 2 * 0 + 1 < ([0, 7, 4, 1] : List Int).length ∧
    2 * 1 + 1 < ([0, 7, 4, 1] : List Int).length := by decide

theorem test_witness_StepRunsTheDecodedStream :
    GoodState (core0 [5, 5, 0, 7] 1 2 3) ∧ CanStep (core0 [5, 5, 0, 7] 1 2 3) ∧
    decodeStream (rawCells (core0 [5, 5, 0, 7] 1 2 3)) = some [.out 5, .adv 7] :=
  ⟨good_core0, by unfold CanStep; decide, by decide⟩

/-- A call that answers Done, one that answers the fault, and a freshly reinitialised core's Done. -/
theorem test_witness_RunToHaltRepeatsSteps :
    (core0 [5, 3] 0 0 0).loaded = true ∧
    (∃ t, command (.runToHalt 2) (core0 [5, 3] 0 0 0) = (.done [3], t)) ∧
    (∃ t, command (.runToHalt 2) (core0 [0, 7] 0 0 0) = (.fault .invalidOperand, t)) ∧
    (load [5, 3] 0 0 0 State.reset).1 = .ok ∧
    ((reinit 1 2 3 (core0 [5, 3] 0 0 0)).1 = .ok ∧
      ∃ t, command (.runToHalt 2) (reinit 1 2 3 (core0 [5, 3] 0 0 0)).2 = (.done [3], t)) :=
  ⟨by decide, ⟨_, rfl⟩, ⟨_, rfl⟩, by decide, by decide, ⟨_, rfl⟩⟩

theorem test_witness_BoundOnlyDecidesWaiting :
    2 ≤ 7 ∧ (command (.runToHalt 2) (core0 [5, 3] 0 0 0)).1 ≠ .unfinished ∧
    (command (.runUntilNextOutput 2) (core0 [5, 3] 0 0 0)).1 ≠ .unfinished := by decide

/-- J7: a jnz at slot 0 that jumps to itself, with both operands that do. -/
theorem test_witness_SelfJumpNeverReturns :
    (CanStep (core0 [3, 0] 1 0 0) ∧ readPair (core0 [3, 0] 1 0 0) (2 * (core0 [3, 0] 1 0 0).ip) =
      some (3, (0 : Digit).setWidth 8) ∧ (core0 [3, 0] 1 0 0).a ≠ 0 ∧
      (core0 [3, 0] 1 0 0).ip = (0 : Digit).toNat / 2) ∧
    (CanStep (core0 [3, 1] 1 0 0) ∧ readPair (core0 [3, 1] 1 0 0) (2 * (core0 [3, 1] 1 0 0).ip) =
      some (3, (1 : Digit).setWidth 8) ∧ (core0 [3, 1] 1 0 0).a ≠ 0 ∧
      (core0 [3, 1] 1 0 0).ip = (1 : Digit).toNat / 2) := by
  unfold CanStep; decide

/-- A call that yields, and one that answers NoMoreOutput. -/
theorem test_witness_NextOutputYieldsOneDigit :
    (∃ t, command (.runUntilNextOutput 1) (core0 [5, 3] 0 0 0) = (.yield 3, t)) ∧
    (∃ t, command (.runUntilNextOutput 2) (core0 [1, 3] 0 0 0) = (.noMoreOutput, t)) := ⟨⟨_, rfl⟩, ⟨_, rfl⟩⟩

/-- A yield, then a run to halt from the state it left. -/
theorem test_witness_ResumeContinuesTheRun :
    ∃ t u, command (.runUntilNextOutput 1) (core0 [5, 3, 5, 1] 0 0 0) = (.yield 3, t) ∧
      command (.runToHalt 2) t = (.done [3, 1], u) := ⟨_, _, rfl, rfl⟩

theorem test_witness_RunsDependOnTheLoadAlone :
    State.reset.params = (core0 [5, 3] 4 5 6).params ∧ (load [0, 1] 1 2 3 State.reset).1 = .ok := by decide

theorem test_witness_OutputIsTheEventsInOrder :
    ∃ t, stepsTo 2 (core0 [5, 3, 5, 1] 0 0 0) = some t ∧ t.outSeq = [3, 1] := ⟨_, rfl, rfl⟩

/-- Each clause of the rule on OUT_SEQ has an instance. -/
theorem test_witness_OutputOnlyGrowsByOut :
    (∃ t, exec (.out 2) (core0 [5, 2] 0 0 0) = .next t ∧ t.fault = .noFault) ∧
    (∃ t, exec (.bst 2) (core0 [2, 2] 0 0 0) = .next t) ∧ startsRun (.runToHalt 3) = false ∧
    (load [5, 2] 0 0 0 State.reset).1 = .ok ∧ (reinit 1 2 3 (core0 [5, 2] 0 0 0)).1 = .ok ∧
    (∃ t, command (.runToHalt 2) (core0 [5, 2] 0 0 0) = (.done [2], t)) :=
  ⟨⟨_, rfl, rfl⟩, ⟨_, rfl⟩, rfl, by decide, by decide, ⟨_, rfl⟩⟩

/-- IP at L and past it; an empty program. -/
theorem test_witness_HaltedStaysHalted :
    ((core0 [] 0 0 0).loaded = true ∧ (core0 [] 0 0 0).fault = .noFault ∧
      (core0 [] 0 0 0).plen ≤ (core0 [] 0 0 0).ip) ∧
    (setIp (core0 [3, 7] 1 0 0) 3).plen < (setIp (core0 [3, 7] 1 0 0) 3).ip ∧
    (∀ cmd ∈ [Command.step, .runToHalt 3, .read .ip], startsRun cmd = false) ∧
    (load [] 1 2 3 State.reset).1 = .ok := by decide

/-- A Faulted core, with each fault; operations that start no run, and two that do. -/
theorem test_witness_FaultedStaysFaulted :
    ((core0 [0, 7] 1 2 3).loaded = true ∧ (command .step (core0 [0, 7] 1 2 3)).2.fault = .invalidOperand) ∧
    ((wide 9 0).loaded = true ∧ (command .step (wide 9 0)).2.fault = .invalidOpcode) ∧
    (∀ cmd ∈ [Command.step, .runToHalt 3, .read .ip], startsRun cmd = false) ∧
    (reinit 1 2 3 (command .step (core0 [0, 7] 1 2 3)).2).1 = .ok ∧
    (load [0, 1] 1 2 3 (command .step (core0 [0, 7] 1 2 3)).2).1 = .ok := by decide

theorem test_witness_LoadSetsTheWholeState :
    (load [0, 1] 0 18446744073709551615 0 State.reset).1 = .ok ∧ (load [0] 0 0 0 State.reset).1 ≠ .ok := by decide

/-- The bounds of a register value, on both sides. -/
theorem test_witness_ReinitStartsFresh :
    ((core0 [0, 1] 1 1 1).loaded = true ∧ regOk 0 = true ∧ regOk 18446744073709551615 = true) ∧
    ((regOk (-1) && regOk 0 && regOk 0) = false ∧ (regOk 0 && regOk 0 && regOk 18446744073709551616) = false) ∧
    State.reset.loaded = false := by decide

theorem test_witness_StatusAndReadsShowTheState : (core0 [0, 1] 1 1 1).loaded = true := by decide

theorem test_witness_InstancesAreIndependent :
    (1 : Nat) ≠ 0 ∧ ([core0 [] 0 0 0, State.reset] : List State)[0]? = some (core0 [] 0 0 0) := by decide

/-- A text of 70 R173 written out, with 0, 9 and 105 in the registers and the program `5,3`, is the text
of these values and parses to them; and a text that no values give. -/
theorem test_witness_TextParsesToItsArguments :
    "Register A: 0\nRegister B: 9\nRegister C: 105\nProgram: 5,3".toList = sourceText [5, 3] 0 9 105 ∧
    parseText "Register A: 0\nRegister B: 9\nRegister C: 105\nProgram: 5,3".toList = some ⟨[5, 3], 0, 9, 105⟩ ∧
    (∀ ds a b c, ds ≠ [] → ([] : List Char) ≠ sourceText ds a b c) :=
  ⟨by decide, by decide, fun _ _ _ _ _ h => nomatch h⟩

end Sys2Proof.Tests
end

section
/-! SUPPORT. What the host's operations do to the state: the effect of LOAD and REINIT, and for the
others the induction over the steps they make. -/

namespace Sys2Proof.Machine

theorem load_status (ds : List Int) (a b c : Int) (s : State) :
    (load ds a b c s).1 = loadCheck s.params ds a b c := by
  unfold load
  split
  · next hok => exact hok.symm
  · rfl

theorem load_of_ok {ds : List Int} {a b c : Int} {s : State} (h : (load ds a b c s).1 = .ok) :
    (load ds a b c s).2 = startRun a b c (setProgram ds s) := by
  rw [load_status] at h
  simp [load, h]

theorem reinit_of_ok {a b c : Int} {s : State} (h : (reinit a b c s).1 = .ok) :
    (reinit a b c s).2 = startRun a b c s := by
  unfold reinit at h ⊢
  split
  · rfl
  · next hr => simp [hr] at h

section Invariant

variable {P : State → Prop} (hstep : ∀ s t, P s → step s = .next t → P t)
include hstep

theorem hostStep_keeps {s : State} (hs : P s) : P (hostStep s).2 := by
  unfold hostStep
  split
  case h_1 t ht => exact hstep s t hs ht
  all_goals exact hs

theorem runToHalt_keeps (bound : Nat) {s : State} (hs : P s) : P (runToHalt bound s).2 := by
  fun_induction runToHalt bound s with
  | case4 bound s _ t ht ih => exact ih (hstep s t hs ht)
  | _ => exact hs

theorem runUntilNextOutput_keeps (bound : Nat) {s : State} (hs : P s) :
    P (runUntilNextOutput bound s).2 := by
  fun_induction runUntilNextOutput bound s with
  | case4 bound s _ t ht => exact hstep s t hs ht
  | case5 bound s _ t ht _ ih => exact ih (hstep s t hs ht)
  | _ => exact hs

/-- What every step keeps, every host operation but LOAD and REINIT keeps. -/
theorem command_keeps {cmd : Command} (hcmd : startsRun cmd = false) {s : State} (hs : P s) :
    P (command cmd s).2 := by
  unfold command
  split
  · cases cmd with
    | load | reinit => cases hcmd
    | step => exact hostStep_keeps hstep hs
    | runToHalt bound => exact runToHalt_keeps hstep bound hs
    | runUntilNextOutput bound => exact runUntilNextOutput_keeps hstep bound hs
    | read | writeStatus => exact hs
  · exact hs

end Invariant

/-- RUN_TO_HALT's Done is the end of a run: the core is Halted, and the reply is its OUT_SEQ (40 R88). -/
theorem runToHalt_done {bound : Nat} {s t : State} {ds : List Digit}
    (h : runToHalt bound s = (.done ds, t)) : runState t = .halted ∧ ds = t.outSeq := by
  fun_induction runToHalt bound s with
  | case3 bound s hhalted =>
    cases h
    exact ⟨hhalted, rfl⟩
  | case4 bound s _ t' _ ih => exact ih h
  | _ => cases h

theorem command_runToHalt_done {bound : Nat} {s t : State} {ds : List Digit}
    (h : command (.runToHalt bound) s = (.done ds, t)) : runState t = .halted ∧ ds = t.outSeq := by
  unfold command at h
  split at h
  · exact runToHalt_done h
  · cases h

end Sys2Proof.Machine
end

section
/-! SUPPORT. OUT_SEQ (10 R29): what one instruction, one step and one host operation do to it. -/

namespace Sys2Proof.Machine

theorem exec_out_appends {k : Digit} {s t : State} (h : exec (.out k) s = .next t)
    (hf : t.fault = .noFault) : ∃ d, t.outSeq = s.outSeq ++ [d] := by
  obtain ⟨_, rfl⟩ | ⟨_, ⟨_, _, hr, _⟩ | ⟨_, d, _, _, rfl⟩ | ⟨_, hi, _⟩ | ⟨_, hi, _⟩⟩ := exec_next_cases h
  · cases hf
  · cases hr
  · exact ⟨d, rfl⟩
  · cases hi
  · cases hi

theorem exec_outSeq_of_ne_out {i : Instr} {s t : State} (h : exec i s = .next t)
    (hi : ∀ k, i ≠ .out k) : t.outSeq = s.outSeq := by
  obtain ⟨_, rfl⟩ | ⟨_, ⟨_, _, _, rfl⟩ | ⟨k, _, hout, _⟩ | ⟨_, _, _, rfl⟩ | ⟨_, _, _, rfl⟩⟩ := exec_next_cases h
  · rfl
  · simp
  · exact absurd hout (hi k)
  · rfl
  · rfl

theorem exec_outSeq_prefix {i : Instr} {s t : State} (h : exec i s = .next t) : s.outSeq <+: t.outSeq := by
  obtain ⟨_, rfl⟩ | ⟨_, ⟨_, _, _, rfl⟩ | ⟨_, _, _, _, rfl⟩ | ⟨_, _, _, rfl⟩ | ⟨_, _, _, rfl⟩⟩ := exec_next_cases h
  all_goals simp

theorem step_outSeq_prefix {s t : State} (h : step s = .next t) : s.outSeq <+: t.outSeq := by
  obtain ⟨_, ⟨_, _, rfl⟩ | ⟨_, _, hexec⟩⟩ := step_next_cases h
  · simp
  · exact exec_outSeq_prefix hexec

theorem command_outSeq_prefix {cmd : Command} (hcmd : startsRun cmd = false) (s : State) :
    s.outSeq <+: (command cmd s).2.outSeq :=
  command_keeps (P := fun t => s.outSeq <+: t.outSeq)
    (fun _ _ hpre hstep => hpre.trans (step_outSeq_prefix hstep)) hcmd List.prefix_rfl

theorem load_outSeq {ds : List Int} {a b c : Int} {s : State} (h : (load ds a b c s).1 = .ok) :
    (load ds a b c s).2.outSeq = [] := by
  simp [load_of_ok h]

theorem reinit_outSeq {a b c : Int} {s : State} (h : (reinit a b c s).1 = .ok) :
    (reinit a b c s).2.outSeq = [] := by
  simp [reinit_of_ok h]

/-- Settles O44: an instruction and a step by what they can do to the state, the host's operations by the
invariant that OUT_SEQ still begins with the digits it held before. -/
theorem outputOnlyGrowsByOut : Obligations.OutputOnlyGrowsByOut :=
  ⟨fun _ _ _ => exec_out_appends, fun _ _ _ => exec_outSeq_of_ne_out,
    fun _ s hcmd => command_outSeq_prefix hcmd s, fun _ _ _ _ _ => load_outSeq,
    fun _ _ _ _ => reinit_outSeq, fun _ _ _ _ h => (command_runToHalt_done h).2⟩

end Sys2Proof.Machine
end

section
/-! SUPPORT. What the decoder reads from two cells that hold digits (30 R60 to R62). -/

namespace Sys2Proof

theorem ofDigits_opDigit (op k : Digit) : (ofDigits op k).opDigit = op := by
  rcases Machine.digit_cases op with rfl | rfl | rfl | rfl | rfl | rfl | rfl | rfl <;> rfl

theorem ofDigits_operand (op k : Digit) : (ofDigits op k).operand = k := by
  rcases Machine.digit_cases op with rfl | rfl | rfl | rfl | rfl | rfl | rfl | rfl <;> rfl

theorem digit_toNat_of_le {cell : Byte} (h : cell.toNat ≤ 7) : (cell.setWidth 3).toNat = cell.toNat := by
  rw [BitVec.toNat_setWidth]
  omega

/-- Two cells that hold digits decode, the first as the opcode and the second as the operand. -/
theorem decodeCells_of_le {op k : Byte} (hop : op.toNat ≤ 7) (hk : k.toNat ≤ 7) :
    ∃ i, decodeCells op k = .ok i ∧ i.opDigit.toNat = op.toNat ∧ i.operand.toNat = k.toNat := by
  refine ⟨ofDigits (op.setWidth 3) (k.setWidth 3), ?_, ?_, ?_⟩
  · rw [decodeCells, if_neg (by omega), if_neg (by omega)]
  · rw [ofDigits_opDigit, digit_toNat_of_le hop]
  · rw [ofDigits_operand, digit_toNat_of_le hk]

end Sys2Proof
end

section
/-! SUPPORT. Program memory (20 R40 to R45): what a LOAD puts there, and that nothing else writes it. -/

namespace Sys2Proof.Machine

open Spec

theorem lengthOk_iff {p : Config.Params} {n : Nat} :
    lengthOk p n = true ↔ n % 2 = 0 ∧ ∀ m ∈ p.maxPlen, n ≤ 2 * m := by
  cases hm : p.maxPlen <;> simp [lengthOk, hm]

/-- LOAD finds its input malformed exactly when one of 60 R147 items 1 to 4 fails. -/
theorem loadCheck_ne_malformedInput {p : Config.Params} {ds : List Int} {a b c : Int} :
    loadCheck p ds a b c ≠ .malformedInput ↔ GoodInput p ds a b c := by
  have hform : GoodInput p ds a b c ↔
      (regOk a && regOk b && regOk c && lengthOk p ds.length && ds.all digitOk) = true := by
    simp only [Bool.and_eq_true, lengthOk_iff, regOk, digitOk, List.all_eq_true, decide_eq_true_eq]
    constructor
    · rintro ⟨ha, hb, hc, heven, hrange, hfits⟩
      exact ⟨⟨⟨⟨ha, hb⟩, hc⟩, heven, hfits⟩, hrange⟩
    · rintro ⟨⟨⟨⟨ha, hb⟩, hc⟩, heven, hfits⟩, hrange⟩
      exact ⟨ha, hb, hc, heven, hrange, hfits⟩
  rw [hform, loadCheck]
  split_ifs with hgood <;> simp [hgood]

theorem goodInput_of_load_ok {ds : List Int} {a b c : Int} {s : State}
    (h : (load ds a b c s).1 = .ok) : GoodInput s.params ds a b c := by
  rw [load_status] at h
  exact loadCheck_ne_malformedInput.1 (by simp [h])

theorem toNat_byte_of_digit {d : Int} (h : 0 ≤ d ∧ d ≤ 7) : ((BitVec.ofInt 8 d).toNat : Int) = d := by
  rw [BitVec.toNat_ofInt]
  omega

theorem Memory.reads_ofDigits (vs : List Byte) :
    (List.range vs.length).map (Memory.read (Memory.ofDigits 0 vs)) = vs := by
  apply List.ext_getElem (by simp)
  intro j hj hj'
  have hread := Memory.read_ofDigits 0 j vs
  rw [Nat.zero_add, List.getElem?_eq_getElem hj', Option.getD_some] at hread
  simpa using hread

theorem rawCells_load {ds : List Int} {a b c : Int} {s : State} (h : (load ds a b c s).1 = .ok) :
    rawCells (load ds a b c s).2 = ds.map (BitVec.ofInt 8) := by
  have hplen : 2 * (ds.length / 2) = (ds.map (BitVec.ofInt 8)).length := by
    have heven := (goodInput_of_load_ok h).evenLength
    rw [List.length_map]
    omega
  rw [load_of_ok h, rawCells, startRun_plen, startRun_prog, setProgram_plen, setProgram_prog, hplen,
    Memory.reads_ofDigits]

/-- After a LOAD every address below the length of the list has a cell, which holds its digit. -/
theorem readCell_load {ds : List Int} {a b c : Int} {s : State} (h : (load ds a b c s).1 = .ok)
    {addr : Nat} (haddr : addr < ds.length) :
    ∃ cell : Byte, readCell (load ds a b c s).2 addr = some cell ∧
      ds[addr]? = some (cell.toNat : Int) ∧ cell.toNat ≤ 7 := by
  have hrange := (goodInput_of_load_ok h).inRange _ (List.getElem_mem haddr)
  have hcell := toNat_byte_of_digit hrange
  refine ⟨BitVec.ofInt 8 ds[addr], ?_, ?_, ?_⟩
  · rw [readCell_eq_rawCells, rawCells_load h, List.getElem?_map, List.getElem?_eq_getElem haddr,
      Option.map_some]
  · rw [hcell, List.getElem?_eq_getElem haddr]
  · omega

/-- `t` has the PROG and L of `s`, and is loaded when `s` is. -/
structure SameProgram (s t : State) : Prop where
  prog : t.prog = s.prog
  plen : t.plen = s.plen
  loaded : t.loaded = s.loaded

theorem SameProgram.refl (s : State) : SameProgram s s := ⟨rfl, rfl, rfl⟩

theorem SameProgram.trans {s t u : State} (h : SameProgram s t) (h' : SameProgram t u) : SameProgram s u :=
  ⟨h'.prog.trans h.prog, h'.plen.trans h.plen, h'.loaded.trans h.loaded⟩

theorem SameProgram.rawCells_eq {s t : State} (h : SameProgram s t) : rawCells t = rawCells s := by
  rw [rawCells, rawCells, h.prog, h.plen]

theorem exec_sameProgram {i : Instr} {s t : State} (h : exec i s = .next t) : SameProgram s t := by
  obtain ⟨_, rfl⟩ | ⟨_, ⟨_, _, _, rfl⟩ | ⟨_, _, _, _, rfl⟩ | ⟨_, _, _, rfl⟩ | ⟨_, _, _, rfl⟩⟩ := exec_next_cases h
  all_goals constructor <;> simp

theorem step_sameProgram {s t : State} (h : step s = .next t) : SameProgram s t := by
  obtain ⟨_, ⟨_, _, rfl⟩ | ⟨_, _, hexec⟩⟩ := step_next_cases h
  · exact ⟨rfl, rfl, rfl⟩
  · exact exec_sameProgram hexec

theorem reinit_sameProgram (a b c : Int) (s : State) : SameProgram s (reinit a b c s).2 := by
  unfold reinit
  split
  · exact ⟨rfl, rfl, rfl⟩
  · exact .refl s

theorem command_sameProgram {cmd : Command} (hcmd : isLoad cmd = false) (s : State) :
    SameProgram s (command cmd s).2 := by
  cases cmd with
  | load => cases hcmd
  | reinit a b c =>
    unfold command
    split
    · exact reinit_sameProgram a b c s
    · exact .refl s
  | _ => exact command_keeps (fun _ _ hsame hstep => hsame.trans (step_sameProgram hstep)) rfl (.refl s)

/-- What each operation of a session keeps, the session keeps. -/
theorem session_keeps {P : State → Prop} {cmds : List Command}
    (hkeep : ∀ cmd ∈ cmds, ∀ s, P s → P (command cmd s).2) {s : State} (hs : P s) : P (session cmds s) := by
  induction cmds generalizing s with
  | nil => exact hs
  | cons cmd cmds ih =>
    exact ih (fun cmd' hmem => hkeep cmd' (.tail _ hmem)) (hkeep cmd (.head _) s hs)

theorem session_sameProgram {cmds : List Command} (hcmds : ∀ cmd ∈ cmds, isLoad cmd = false) (s : State) :
    SameProgram s (session cmds s) :=
  session_keeps (fun cmd hmem _ hsame => hsame.trans (command_sameProgram (hcmds cmd hmem) _)) (.refl s)

theorem command_read_of_loaded {s : State} (h : s.loaded = true) (comp : Component) :
    command (.read comp) s = (.value (readComponent s comp), s) := by
  simp [command, perform, h]

/-- Settles O33: an instruction by what it can do to the state, a host operation by the invariant that
the program is the one it started with. -/
theorem onlyLoadWritesProgram : Obligations.OnlyLoadWritesProgram := by
  refine ⟨fun i s t h => ?_, fun cmd s hcmd => ?_⟩
  · have hsame := exec_sameProgram h
    exact ⟨hsame.prog, hsame.plen⟩
  · have hsame := command_sameProgram hcmd s
    exact ⟨hsame.prog, hsame.plen⟩

/-- Settles O34: the session keeps the program LOAD wrote, whose raw cells are the digits as bytes, and
a digit loses nothing in a byte. -/
theorem rawDigitsReadBack : Obligations.RawDigitsReadBack := by
  intro ds a b c s cmds hload hcmds
  have hsame := session_sameProgram hcmds (load ds a b c s).2
  have hloaded : (session cmds (load ds a b c s).2).loaded = true := by
    rw [hsame.loaded, load_of_ok hload, startRun_loaded, setProgram_loaded]
  refine ⟨ds.map (BitVec.ofInt 8), ?_, ?_⟩
  · rw [command_read_of_loaded hloaded, readComponent, hsame.rawCells_eq, rawCells_load hload]
  · rw [List.map_map]
    have hback : ∀ d ∈ ds, ((BitVec.ofInt 8 d).toNat : Int) = d :=
      fun d hd => toNat_byte_of_digit ((goodInput_of_load_ok hload).inRange d hd)
    exact (List.map_congr_left hback).trans ds.map_id

/-- Settles O35: the two cells of the slot hold its digits, so the decoder takes them as they are. -/
theorem slotHoldsOpcodeThenOperand : Obligations.SlotHoldsOpcodeThenOperand := by
  intro ds a b c s slot hload hslot
  obtain ⟨op, hop, hopDigit, hople⟩ := readCell_load hload (Nat.lt_of_succ_lt hslot)
  obtain ⟨k, hk, hkDigit, hkle⟩ := readCell_load hload hslot
  obtain ⟨i, hdecode⟩ := decodeCells_of_le hople hkle
  exact ⟨op, k, i, by simp [readPair, hop, hk], hopDigit, hkDigit, hdecode⟩

end Sys2Proof.Machine
end

section
/-! SUPPORT. Encoding (30 R60 to R65): the decoder inverts the encoder, cell by cell and along a stream,
and combo code 7 is loadable and faults. -/

namespace Sys2Proof

theorem ofDigits_opDigit_operand (i : Instr) : ofDigits i.opDigit i.operand = i := by
  cases i <;> rfl

theorem digit_toByte_toNat_le (d : Digit) : (d.setWidth 8).toNat ≤ 7 := by
  rw [BitVec.toNat_setWidth]
  omega

theorem digit_toByte_toDigit (d : Digit) : (d.setWidth 8).setWidth 3 = d :=
  BitVec.setWidth_setWidth_of_le d (by decide)

theorem byte_toDigit_toByte {cell : Byte} (h : cell.toNat ≤ 7) : (cell.setWidth 3).setWidth 8 = cell := by
  apply BitVec.eq_of_toNat_eq
  rw [BitVec.toNat_setWidth, digit_toNat_of_le h]
  omega

/-- The decoder takes two cells as `i` exactly when they are the opcode digit and the operand digit of
`i`; a cell that holds no digit belongs to no instruction. -/
theorem decodeCells_eq_ok {op k : Byte} {i : Instr} :
    decodeCells op k = .ok i ↔ op = i.opDigit.setWidth 8 ∧ k = i.operand.setWidth 8 := by
  constructor
  · intro h
    unfold decodeCells at h
    split_ifs at h with hop hk
    cases h
    rw [ofDigits_opDigit, ofDigits_operand, byte_toDigit_toByte (by omega), byte_toDigit_toByte (by omega)]
    exact ⟨rfl, rfl⟩
  · rintro ⟨rfl, rfl⟩
    have hop := digit_toByte_toNat_le i.opDigit
    have hk := digit_toByte_toNat_le i.operand
    rw [decodeCells, if_neg (by omega), if_neg (by omega), digit_toByte_toDigit, digit_toByte_toDigit,
      ofDigits_opDigit_operand]

theorem decodeCells_encode (i : Instr) : decodeCells (i.opDigit.setWidth 8) (i.operand.setWidth 8) = .ok i :=
  decodeCells_eq_ok.2 ⟨rfl, rfl⟩

theorem encode_length (i : Instr) : (encode i).length = 2 := rfl

theorem flatMap_encode_length (is : List Instr) : (is.flatMap encode).length = 2 * is.length := by
  induction is with
  | nil => rfl
  | cons i is ih =>
    rw [List.flatMap_cons, List.length_append, ih, encode_length, List.length_cons]
    omega

theorem decodeStream_flatMap_encode (is : List Instr) : decodeStream (is.flatMap encode) = some is := by
  induction is with
  | nil => rfl
  | cons i is ih => simp [encode, decodeStream, decodeCells_encode, ih]

theorem eq_flatMap_encode_of_decodeStream {cells : List Byte} {is : List Instr}
    (h : decodeStream cells = some is) : cells = is.flatMap encode := by
  fun_induction decodeStream cells generalizing is with
  | case1 =>
    cases h
    rfl
  | case2 | case4 => cases h
  | case3 op k rest i js hrest hi ih =>
    obtain ⟨rfl, rfl⟩ := decodeCells_eq_ok.1 hi
    cases h
    rw [ih hrest]
    rfl

/-- Settles O2: the decoder inverts the encoder by induction over the instructions, and takes nothing
else by induction over its own pairs of cells. -/
theorem streamDecodesTwoDigitsEach : Obligations.StreamDecodesTwoDigitsEach :=
  ⟨fun _ is => ⟨eq_flatMap_encode_of_decodeStream, fun h => h ▸ decodeStream_flatMap_encode is⟩,
    flatMap_encode_length, fun _ => rfl⟩

namespace Machine

open Spec

theorem exec_combo_seven {i : Instr} (hkind : operandKind i = .combo) (hseven : i.operand = 7) (s : State) :
    exec i s = .next (raiseFault .invalidOperand s) := by
  cases i with
  | bxl | jnz | bxc => cases hkind
  | adv | bst | out | bdv | cdv =>
    cases hseven
    rfl

theorem loadCheck_of_no_precheck {p : Config.Params} {ds : List Int} {a b c : Int}
    (hp : p.precheckAtLoad = false) (hgood : GoodInput p ds a b c) : loadCheck p ds a b c = .ok := by
  have hform := loadCheck_ne_malformedInput.2 hgood
  unfold loadCheck at hform ⊢
  split_ifs at hform ⊢ with _ hpre
  · simp [hp] at hpre
  · rfl
  · exact absurd rfl hform

/-- Settles O26: the table read off, code 7 by the fault it raises in each combo-kind instruction, and
LOAD by its checks, of which only the precheck looks at a 7. -/
theorem comboOperandTable : Obligations.ComboOperandTable := by
  refine ⟨fun s => ⟨rfl, rfl, rfl, rfl, rfl, rfl, rfl, rfl⟩, by decide, ?_, ?_⟩
  · intro i s hkind hseven _
    exact ⟨_, exec_combo_seven hkind hseven s, raiseFault_fault _ s⟩
  · intro ds a b c s hp hgood
    rw [load_status, loadCheck_of_no_precheck hp hgood]

end Machine

end Sys2Proof
end

section
/-! SUPPORT. Running and stopped cores (40 R81, R87, R91): when a step exists, what RUN_TO_HALT does in
each condition, and that a run starts from the LOAD alone. -/

namespace Sys2Proof.Machine

theorem running_of_step_next {s t : State} (h : step s = .next t) : runState s = .running := by
  obtain ⟨⟨_, hfault, hip⟩, _⟩ := step_next_cases h
  exact runState_eq_running.2 ⟨hfault, hip⟩

theorem step_of_halted {s : State} (hl : s.loaded = true) (h : runState s = .halted) :
    step s = .fault .halted := by
  simp [step, fetchInstr, hl, h]

theorem step_of_faulted {s : State} (hl : s.loaded = true) (h : runState s = .faulted) :
    step s = .fault .faulted := by
  simp [step, fetchInstr, hl, h]

theorem no_step_of_not_running {s : State} (h : runState s ≠ .running) (t : State) : step s ≠ .next t :=
  mt running_of_step_next h

theorem command_of_loaded {s : State} (h : s.loaded = true) (cmd : Command) :
    command cmd s = perform cmd s := by
  simp [command, h]

/-- Settles O9: a next state needs a core that can step, and STEP answers the reason the fetch names. -/
theorem noStepUnlessRunning : Obligations.NoStepUnlessRunning := by
  refine ⟨fun _ _ => running_of_step_next, fun s hl h => ?_, fun s hl h => ?_⟩
  · rw [command_of_loaded hl, perform, hostStep, step_of_halted hl h]
  · rw [command_of_loaded hl, perform, hostStep, step_of_faulted hl h]

/-- A core that makes no step is left as it is by every session that starts no new run. -/
theorem session_eq_self_of_no_step {s : State} (h : ∀ t, step s ≠ .next t) {cmds : List Command}
    (hcmds : ∀ cmd ∈ cmds, startsRun cmd = false) : session cmds s = s := by
  have hstep : ∀ u t, u = s → step u = .next t → t = s := fun u t hu ht => absurd (hu ▸ ht) (h t)
  exact session_keeps (P := (· = s)) (fun cmd hmem _ hu => command_keeps hstep (hcmds cmd hmem) hu) rfl

theorem load_loaded {ds : List Int} {a b c : Int} {s : State} (h : (load ds a b c s).1 = .ok) :
    (load ds a b c s).2.loaded = true := by
  simp [load_of_ok h]

theorem reinit_loaded {a b c : Int} {s : State} (hl : s.loaded = true) (h : (reinit a b c s).1 = .ok) :
    (reinit a b c s).2.loaded = true := by
  simp [reinit_of_ok h, hl]

theorem load_nil_halted {a b c : Int} {s : State} (h : (load [] a b c s).1 = .ok) :
    runState (load [] a b c s).2 = .halted := by
  simp [runState_eq_halted, load_of_ok h]

theorem runToHalt_of_halted {s : State} (h : runState s = .halted) (n : Nat) :
    runToHalt (n + 1) s = (.done s.outSeq, s) := by
  simp [runToHalt, h]

theorem runToHalt_of_faulted {s : State} (h : runState s = .faulted) (n : Nat) :
    runToHalt (n + 1) s = (.fault s.fault, s) := by
  simp [runToHalt, h]

theorem runToHalt_of_step {s t : State} (h : step s = .next t) (n : Nat) :
    runToHalt (n + 1) s = runToHalt n t := by
  simp [runToHalt, running_of_step_next h, h]

/-- Settles O45: a Halted core has no step, so no operation but LOAD and REINIT moves it; and the empty
program has L = 0, so IP = 0 is past its end. -/
theorem haltedStaysHalted : Obligations.HaltedStaysHalted := by
  refine ⟨fun s _ hfault hip => ?_, fun a b c s n hload => ?_⟩
  · have hhalted : runState s = .halted := runState_eq_halted.2 ⟨hfault, hip⟩
    have hno : ∀ t, step s ≠ .next t := no_step_of_not_running (by simp [hhalted])
    exact ⟨hhalted, hno, fun _ => session_eq_self_of_no_step hno⟩
  · have hhalted := load_nil_halted hload
    refine ⟨hhalted, ?_⟩
    rw [command_of_loaded (load_loaded hload), perform, runToHalt_of_halted hhalted, load_outSeq hload]

/-- LOAD leaves nothing of the instance's history: what it accepts and the state it makes are those of
any instance with the same parameters (40 R91). -/
theorem load_eq_of_params_eq {ds : List Int} {a b c : Int} {s s' : State} (hp : s.params = s'.params)
    (h : (load ds a b c s).1 = .ok) : load ds a b c s' = load ds a b c s := by
  have h' : (load ds a b c s').1 = .ok := by rwa [load_status, ← hp, ← load_status]
  refine Prod.ext (h'.trans h.symm) ?_
  rw [load_of_ok h, load_of_ok h']
  simp [startRun, setProgram, hp]

/-- Settles O42: the two LOADs make the same state. -/
theorem runsDependOnTheLoadAlone : Obligations.RunsDependOnTheLoadAlone := by
  intro ds a b c s s' hp h
  rw [load_eq_of_params_eq hp h]
  exact ⟨h, fun _ => rfl, fun _ => rfl⟩

end Sys2Proof.Machine
end

section
/-! SUPPORT. Output events (44 R132): a step appends its event to OUT_SEQ and nothing else. -/

namespace Sys2Proof.Machine

/-- An instruction that leaves FAULT set has changed nothing else (60 R144). -/
theorem exec_eq_raiseFault {i : Instr} {s t : State} (h : exec i s = .next t) (hs : s.fault = .noFault)
    (ht : t.fault ≠ .noFault) : t = raiseFault .invalidOperand s := by
  obtain ⟨_, rfl⟩ | ⟨_, ⟨_, _, _, rfl⟩ | ⟨_, _, _, _, rfl⟩ | ⟨_, _, _, rfl⟩ | ⟨_, _, _, rfl⟩⟩ := exec_next_cases h
  · rfl
  all_goals exact absurd (by simpa using hs) ht

theorem opDigit_eq_five_iff {i : Instr} : i.opDigit.setWidth 8 = (5 : Byte) ↔ ∃ k, i = .out k := by
  cases i <;> simp [Instr.opDigit]

/-- RUN_UNTIL_NEXT_OUTPUT's test on the opcode cell agrees with the decoder (40 R89). -/
theorem wasOut_iff_of_decode {s : State} {i : Instr} (hip : s.ip < s.plen)
    (hi : decodeCells (Memory.read s.prog (2 * s.ip)) (Memory.read s.prog (2 * s.ip + 1)) = .ok i) :
    wasOut s = true ↔ ∃ k, i = .out k := by
  have hcell : readCell s (2 * s.ip) = some (i.opDigit.setWidth 8) :=
    readCell_eq_some.2 ⟨by omega, (decodeCells_eq_ok.1 hi).1⟩
  rw [wasOut, hcell, ← opDigit_eq_five_iff]
  simp

theorem stepEvent_of_fault {s t : State} (h : t.fault ≠ .noFault) : stepEvent s t = none := by
  simp [stepEvent, h]

theorem stepEvent_of_not_out {s t : State} (h : ¬ wasOut s = true) : stepEvent s t = none := by
  simp [stepEvent, h]

theorem stepEvent_of_out {s t : State} (h : wasOut s = true) (hf : t.fault = .noFault) :
    stepEvent s t = t.outSeq.getLast? := by
  simp [stepEvent, h, hf]

/-- A step appends its output event to OUT_SEQ, and nothing where it has none (44 R132). -/
theorem step_outSeq {s t : State} (h : step s = .next t) :
    t.outSeq = s.outSeq ++ (stepEvent s t).toList := by
  obtain ⟨⟨_, hfault, hip⟩, ⟨e, _, rfl⟩ | ⟨i, hi, hexec⟩⟩ := step_next_cases h
  · have hf : (raiseFault (faultOfDecode e) s).fault ≠ .noFault := by cases e <;> simp [faultOfDecode]
    simp [stepEvent_of_fault hf]
  · by_cases hf : t.fault = .noFault
    · by_cases hout : wasOut s = true
      · obtain ⟨k, rfl⟩ := (wasOut_iff_of_decode hip hi).1 hout
        obtain ⟨d, hd⟩ := exec_out_appends hexec hf
        simp [stepEvent_of_out hout hf, hd]
      · have hne : ∀ k, i ≠ .out k := fun k hk => hout ((wasOut_iff_of_decode hip hi).2 ⟨k, hk⟩)
        simp [stepEvent_of_not_out hout, exec_outSeq_of_ne_out hexec hne]
    · rw [stepEvent_of_fault hf, exec_eq_raiseFault hexec hfault hf]
      simp

theorem outEvents_of_step {s t : State} (h : step s = .next t) (n : Nat) :
    outEvents (n + 1) s = (stepEvent s t).toList ++ outEvents n t := by
  simp [outEvents, h]

theorem outEvents_of_no_step {s : State} (h : ∀ t, step s ≠ .next t) (n : Nat) : outEvents n s = [] := by
  fun_cases outEvents n s with
  | case2 n _ t hstep => exact absurd hstep (h t)
  | _ => rfl

end Sys2Proof.Machine
end

section
/-! SUPPORT. RUN_TO_HALT as the step repeated (40 R88): the states it reaches and the digits it returns. -/

namespace Sys2Proof.Machine

open Spec

/-- RUN_TO_HALT runs through the steps from `s` to `t` and goes on from `t`. -/
theorem runToHalt_add_of_stepsTo {m : Nat} {s t : State} (h : stepsTo m s = some t) (n : Nat) :
    runToHalt (m + n) s = runToHalt n t := by
  fun_induction stepsTo m s with
  | case1 s =>
    cases h
    rw [Nat.zero_add]
  | case2 m s u hstep ih => rw [Nat.succ_add, runToHalt_of_step hstep, ih h]
  | case3 => cases h

/-- Whatever RUN_TO_HALT replies, the state it leaves is one the steps reach. -/
theorem stepsTo_runToHalt (n : Nat) (s : State) : ∃ m, stepsTo m s = some (runToHalt n s).2 := by
  fun_induction runToHalt n s with
  | case4 n s _ t hstep ih =>
    obtain ⟨m, hm⟩ := ih
    exact ⟨m + 1, by rwa [stepsTo, hstep]⟩
  | _ => exact ⟨0, rfl⟩

theorem runToHalt_fault {n : Nat} {s t : State} {f : FaultStatus}
    (h : runToHalt n s = (.fault f, t)) : runState t = .faulted ∧ f = t.fault := by
  fun_induction runToHalt n s with
  | case2 n s hfaulted =>
    cases h
    exact ⟨hfaulted, rfl⟩
  | case4 n s _ u _ ih => exact ih h
  | _ => cases h

/-- Some RUN_TO_HALT answers Done exactly when the steps reach Halted (40 R88). -/
theorem exists_runToHalt_done_iff {s t : State} {ds : List Digit} :
    (∃ n, runToHalt n s = (.done ds, t)) ↔
      ∃ m, stepsTo m s = some t ∧ runState t = .halted ∧ ds = t.outSeq := by
  constructor
  · rintro ⟨n, h⟩
    obtain ⟨m, hm⟩ := stepsTo_runToHalt n s
    exact ⟨m, by rwa [h] at hm, runToHalt_done h⟩
  · rintro ⟨m, hm, hhalted, rfl⟩
    exact ⟨m + 1, by rw [runToHalt_add_of_stepsTo hm, runToHalt_of_halted hhalted]⟩

/-- Some RUN_TO_HALT answers the fault exactly when the steps reach Faulted (40 R88). -/
theorem exists_runToHalt_fault_iff {s t : State} {f : FaultStatus} :
    (∃ n, runToHalt n s = (.fault f, t)) ↔
      ∃ m, stepsTo m s = some t ∧ runState t = .faulted ∧ f = t.fault := by
  constructor
  · rintro ⟨n, h⟩
    obtain ⟨m, hm⟩ := stepsTo_runToHalt n s
    exact ⟨m, by rwa [h] at hm, runToHalt_fault h⟩
  · rintro ⟨m, hm, hfaulted, rfl⟩
    exact ⟨m + 1, by rw [runToHalt_add_of_stepsTo hm, runToHalt_of_faulted hfaulted]⟩

/-- Done carries what OUT_SEQ held before the run, then the output events of the run. -/
theorem runToHalt_done_outEvents {n : Nat} {s t : State} {ds : List Digit}
    (h : runToHalt n s = (.done ds, t)) : ds = s.outSeq ++ outEvents n s := by
  fun_induction runToHalt n s with
  | case3 n s hhalted =>
    cases h
    rw [outEvents_of_no_step (no_step_of_not_running (by simp [hhalted])), List.append_nil]
  | case4 n s _ u hstep ih => rw [ih h, step_outSeq hstep, outEvents_of_step hstep, List.append_assoc]
  | _ => cases h

/-- On a loaded core whose OUT_SEQ is empty, Done carries exactly the digits of the run. -/
theorem command_runToHalt_done_fresh {n : Nat} {s t : State} {ds : List Digit} (hl : s.loaded = true)
    (hempty : s.outSeq = []) (h : command (.runToHalt n) s = (.done ds, t)) : ds = outEvents n s := by
  rw [command_of_loaded hl, perform] at h
  simpa [hempty] using runToHalt_done_outEvents h

/-- Settles O37: RUN_TO_HALT and the repeated step reach the same states, by induction over the turns of
its loop one way and over the steps the other; its digits are the events of those steps. -/
theorem runToHaltRepeatsSteps : Obligations.RunToHaltRepeatsSteps := by
  refine ⟨fun s ds t hl => ?_, fun s f t hl => ?_, fun _ _ _ _ _ _ _ _ hload => ?_,
    fun _ _ _ _ _ _ _ hl hreinit => ?_⟩
  · simp only [command_of_loaded hl, perform]
    exact exists_runToHalt_done_iff
  · simp only [command_of_loaded hl, perform]
    exact exists_runToHalt_fault_iff
  · exact command_runToHalt_done_fresh (load_loaded hload) (load_outSeq hload)
  · exact command_runToHalt_done_fresh (reinit_loaded hl hreinit) (reinit_outSeq hreinit)

end Sys2Proof.Machine
end

section
/-! SUPPORT. The bitwise family (42 R110, R112): what an instruction that writes one register and
advances leaves unchanged, and what bxl and bxc write to B. -/

namespace Sys2Proof

theorem decodeWord_append (op k : Digit) : decodeWord (op ++ k) = ofDigits op k := by
  rw [decodeWord, BitVec.extractLsb'_append_eq_left, BitVec.extractLsb'_append_eq_right]

namespace Machine

open Spec

theorem SameProgram.readCell_eq {s t : State} (h : SameProgram s t) (addr : Nat) :
    readCell t addr = readCell s addr := by
  rw [readCell_eq_rawCells, h.rawCells_eq, ← readCell_eq_rawCells]

theorem writeReg_sameProgram (s : State) (r : Reg) (v : Word) : SameProgram s (writeReg s r v) := by
  constructor <;> simp

theorem advance_sameProgram (s : State) : SameProgram s (advance s) := ⟨rfl, rfl, rfl⟩

theorem keepsRest_advance_writeReg (s : State) (r : Reg) (v : Word) :
    KeepsRest s (advance (writeReg s r v)) where
  fault := by simp
  prog := by simp
  plen := by simp
  loaded := by simp
  params := by simp
  everyCell := ((writeReg_sameProgram s r v).trans (advance_sameProgram _)).readCell_eq

theorem writesOnly_advance_writeReg (s : State) (r : Reg) (v : Word) :
    WritesOnly r s (advance (writeReg s r v)) where
  others q hq := by rw [readReg_advance, readReg_writeReg_ne s v hq]
  ip := by simp
  outSeq := by simp
  rest := keepsRest_advance_writeReg s r v

theorem writesOnly_setB (v : Word) (s : State) : WritesOnly .b s (setB v s) :=
  writesOnly_advance_writeReg s .b v

@[simp] theorem setB_b (v : Word) (s : State) : (setB v s).b = v := rfl

theorem exec_bxl (k : Digit) (s : State) : exec (.bxl k) s = .next (setB (s.b ^^^ zext64 k) s) := rfl

theorem exec_bxc (k : Digit) (s : State) : exec (.bxc k) s = .next (setB (s.b ^^^ s.c) s) := rfl

theorem zext64_zero : zext64 0 = 0#64 := rfl

/-- As a register value, a digit has its own three bits and zeros above (30 R64). -/
theorem zext64_getLsbD (k : Digit) (j : Nat) : (zext64 k).getLsbD j = (decide (j < 3) && k.getLsbD j) := by
  rw [zext64, BitVec.getLsbD_setWidth]
  by_cases hj : j < 3
  · have hj64 : j < 64 := by omega
    simp [hj, hj64]
  · simp [hj, k.getLsbD_of_ge j (by omega)]

/-- Settles O20: bxl writes `B ^^^ zext64 k`, and a second xor with the same literal cancels the first. -/
theorem bxlXorsLiteral : Obligations.BxlXorsLiteral := by
  intro s k
  refine ⟨decodeWord_append 1 k, rfl, _, exec_bxl k s, writesOnly_setB _ s, fun j => ?_, ?_, ?_⟩
  · rw [setB_b, BitVec.getLsbD_xor, zext64_getLsbD]
  · rintro rfl
    rw [setB_b, zext64_zero, BitVec.xor_zero]
  · intro u hu
    rw [exec_bxl, setB_b, BitVec.xor_assoc, BitVec.xor_self, BitVec.xor_zero] at hu
    cases hu
    rfl

/-- Settles O22: bxc writes `B ^^^ C`, in which the operand does not occur. -/
theorem bxcXorsC : Obligations.BxcXorsC := by
  intro s k
  refine ⟨decodeWord_append 4 k, fun _ => rfl, _, exec_bxc k s, writesOnly_setB _ s, fun j => ?_, ?_, ?_⟩
  · rw [setB_b, BitVec.getLsbD_xor]
  · intro hc
    rw [setB_b, hc]
    exact BitVec.xor_zero
  · intro hbc
    rw [setB_b, hbc]
    exact BitVec.xor_self

end Machine

end Sys2Proof
end

section
/-! SUPPORT. Output (44 R130): the value of a combo operand as a number, what out with room appends and
leaves unchanged, and the turn of RUN_UNTIL_NEXT_OUTPUT at an out. -/

namespace Sys2Proof.Machine

open Spec

/-- The value of a combo operand is the number the table of 30 R65 gives it. -/
theorem toNat_of_combo {s : State} {k : Digit} {v : Word} (h : combo s k = some v) :
    v.toNat = comboNat s k := by
  rcases digit_cases k with rfl | rfl | rfl | rfl | rfl | rfl | rfl | rfl <;> cases h <;> rfl

theorem lowDigit_toNat_of_combo {s : State} {k : Digit} {v : Word} (h : combo s k = some v) :
    (lowDigit v).toNat = comboNat s k % 8 := by
  rw [lowDigit_toNat, toNat_of_combo h]

/-- A literal combo operand is its own low digit. -/
theorem lowDigit_of_combo_literal {s : State} {k : Digit} {v : Word} (h : combo s k = some v)
    (hk : k.toNat ≤ 3) : lowDigit v = k := by
  apply BitVec.eq_of_toNat_eq
  rw [lowDigit_toNat_of_combo h, comboNat, if_pos hk]
  omega

theorem exec_out_of_combo {s : State} {k : Digit} {v : Word} (h : combo s k = some v)
    (hroom : hasRoom s = true) : exec (.out k) s = .next (advance (emit (lowDigit v) s)) := by
  rw [exec, execOut, withCombo_of_some h, if_pos hroom]

theorem emit_sameProgram (d : Digit) (s : State) : SameProgram s (emit d s) := ⟨rfl, rfl, rfl⟩

theorem keepsRest_advance_emit (d : Digit) (s : State) : KeepsRest s (advance (emit d s)) where
  fault := by simp
  prog := by simp
  plen := by simp
  loaded := by simp
  params := by simp
  everyCell := ((emit_sameProgram d s).trans (advance_sameProgram _)).readCell_eq

/-- A core that can step runs the instruction its two cells at IP decode to (40 R82 to R84). -/
theorem step_of_decodeCells {s : State} {op k : Byte} {i : Instr} (hcan : CanStep s)
    (hpair : readPair s (2 * s.ip) = some (op, k)) (hi : decodeCells op k = .ok i) : step s = exec i s := by
  obtain ⟨_, rfl, rfl⟩ := readPair_eq_some.1 hpair
  simp [step, fetchInstr_of_canStep hcan, hi]

theorem wasOut_of_readPair {s : State} {k : Byte} (hpair : readPair s (2 * s.ip) = some (5, k)) :
    wasOut s = true := by
  obtain ⟨haddr, hop, _⟩ := readPair_eq_some.1 hpair
  simp [wasOut, readCell_eq_some.2 ⟨Nat.lt_of_succ_lt haddr, hop⟩]

/-- A step whose event is a digit ends RUN_UNTIL_NEXT_OUTPUT in its first turn (40 R89). -/
theorem runUntilNextOutput_of_event {s t : State} {d : Digit} (hstep : step s = .next t)
    (hd : stepEvent s t = some d) (n : Nat) : runUntilNextOutput (n + 1) s = (.yield d, t) := by
  simp [runUntilNextOutput, running_of_step_next hstep, hstep, hd]

/-- RUN_UNTIL_NEXT_OUTPUT yields the digit of the out at IP at once, when it emits one. -/
theorem command_runUntilNextOutput_of_out {s : State} {k d : Digit} (hcan : CanStep s)
    (hpair : readPair s (2 * s.ip) = some (5, k.setWidth 8))
    (hexec : exec (.out k) s = .next (advance (emit d s))) (n : Nat) :
    command (.runUntilNextOutput (n + 1)) s = (.yield d, advance (emit d s)) := by
  have hstep : step s = .next (advance (emit d s)) :=
    (step_of_decodeCells hcan hpair (decodeCells_encode (.out k))).trans hexec
  obtain ⟨hl, hfault, _⟩ := hcan
  have hevent : stepEvent s (advance (emit d s)) = some d := by
    rw [stepEvent_of_out (wasOut_of_readPair hpair) (by simpa using hfault)]
    simp
  rw [command_of_loaded hl, perform, runUntilNextOutput_of_event hstep hevent]

/-- Settles O24: with room, out on a combo value appends its low digit and advances, which is also the
event the run mode yields; operand 7 is the fault of every combo-kind instruction. -/
theorem outEmitsLowDigit : Obligations.OutEmitsLowDigit := by
  intro s k
  refine ⟨decodeWord_append 5 k, fun hk hroom => ?_, fun hk _ => ?_⟩
  · obtain ⟨v, hv⟩ := combo_of_ne (s := s) hk
    have hexec := exec_out_of_combo hv hroom
    exact ⟨_, lowDigit v, hexec, rfl, lowDigit_toNat_of_combo hv, lowDigit_of_combo_literal hv, rfl,
      fun r => by rw [readReg_advance, readReg_emit], keepsRest_advance_emit _ s,
      fun hcan hpair => command_runUntilNextOutput_of_out hcan hpair hexec⟩
  · exact ⟨_, exec_combo_seven (i := .out k) rfl hk s, raiseFault_fault _ s, raiseFault_outSeq _ s⟩

end Sys2Proof.Machine
end

section
/-! SUPPORT. InvalidOpcode (60 R142): an opcode cell above 7 takes it where it is met, LOAD lets no such
cell in, and a program of digits never raises it. -/

namespace Sys2Proof.Machine

open Spec

theorem decodeCells_of_wide_opcode {op : Byte} (h : 7 < op.toNat) (k : Byte) :
    decodeCells op k = .error (.invalidOpcode op) := by
  rw [decodeCells, if_pos h]

/-- A core that can step takes the fault that decoding its two cells at IP raises (60 R143, R144). -/
theorem step_of_decodeCells_error {s : State} {op k : Byte} {e : DecodeError} (hcan : CanStep s)
    (hpair : readPair s (2 * s.ip) = some (op, k)) (he : decodeCells op k = .error e) :
    step s = .next (raiseFault (faultOfDecode e) s) := by
  obtain ⟨_, rfl, rfl⟩ := readPair_eq_some.1 hpair
  simp [step, fetchInstr_of_canStep hcan, he]

theorem no_step_of_fault {s : State} (h : s.fault ≠ .noFault) (t : State) : step s ≠ .next t :=
  no_step_of_not_running (by simp [runState_eq_faulted.2 h]) t

/-- A LOAD whose checks fail answers their status and changes nothing (70 R170). -/
theorem load_of_not_ok {ds : List Int} {a b c : Int} {s : State} (h : loadCheck s.params ds a b c ≠ .ok) :
    load ds a b c s = (loadCheck s.params ds a b c, s) := by
  unfold load
  split
  · next hok => exact absurd hok h
  · rfl

theorem load_of_not_goodInput {ds : List Int} {a b c : Int} {s : State}
    (h : ¬ GoodInput s.params ds a b c) : load ds a b c s = (.malformedInput, s) := by
  have hbad : loadCheck s.params ds a b c = .malformedInput := not_not.1 (mt loadCheck_ne_malformedInput.1 h)
  rw [load_of_not_ok (by simp [hbad]), hbad]

/-- What keeps InvalidOpcode out of reach: every program cell holds a digit, and it is not taken yet. -/
structure OpcodesInRange (s : State) : Prop where
  digits : ∀ cell ∈ rawCells s, cell.toNat ≤ 7
  fault : s.fault ≠ .invalidOpcode

/-- The same program under a FAULT kept, cleared or set to INVALID_OPERAND. -/
theorem OpcodesInRange.of_sameProgram {s t : State} (hs : OpcodesInRange s) (hsame : SameProgram s t)
    (hfault : t.fault ≠ .invalidOpcode) : OpcodesInRange t where
  digits := by
    rw [hsame.rawCells_eq]
    exact hs.digits
  fault := hfault

/-- Where every cell is a digit, the two cells at IP decode. -/
theorem OpcodesInRange.decodes {s : State} (hs : OpcodesInRange s) (hip : s.ip < s.plen) :
    ∃ i, decodeCells (Memory.read s.prog (2 * s.ip)) (Memory.read s.prog (2 * s.ip + 1)) = .ok i := by
  have hcell : ∀ addr < 2 * s.plen, (Memory.read s.prog addr).toNat ≤ 7 := fun addr haddr =>
    hs.digits _ (List.mem_map_of_mem (List.mem_range.2 haddr))
  obtain ⟨i, hi, _⟩ := decodeCells_of_le (hcell (2 * s.ip) (by omega)) (hcell (2 * s.ip + 1) (by omega))
  exact ⟨i, hi⟩

/-- A LOAD that succeeds sets the invariant up from any state, and so discards the past (70 R170). -/
theorem opcodesInRange_of_load_ok {ds : List Int} {a b c : Int} {s : State} (h : (load ds a b c s).1 = .ok) :
    OpcodesInRange (load ds a b c s).2 where
  digits := by
    rw [rawCells_load h]
    intro cell hcell
    obtain ⟨d, hd, rfl⟩ := List.mem_map.1 hcell
    have hrange := (goodInput_of_load_ok h).inRange d hd
    have hbyte := toNat_byte_of_digit hrange
    omega
  fault := by simp [load_of_ok h]

theorem exec_fault {i : Instr} {s t : State} (h : exec i s = .next t) :
    t.fault = s.fault ∨ t.fault = .invalidOperand := by
  obtain ⟨_, rfl⟩ | ⟨_, ⟨_, _, _, rfl⟩ | ⟨_, _, _, _, rfl⟩ | ⟨_, _, _, rfl⟩ | ⟨_, _, _, rfl⟩⟩ := exec_next_cases h
  · exact .inr rfl
  all_goals exact .inl (by simp)

/-- The decode cannot fail, and an instruction raises InvalidOperand at most (60 R141, R142). -/
theorem step_keeps_opcodesInRange {s t : State} (hs : OpcodesInRange s) (h : step s = .next t) :
    OpcodesInRange t := by
  refine hs.of_sameProgram (step_sameProgram h) ?_
  obtain ⟨⟨_, _, hip⟩, ⟨e, he, _⟩ | ⟨i, _, hexec⟩⟩ := step_next_cases h
  · obtain ⟨i, hi⟩ := hs.decodes hip
    cases he.symm.trans hi
  · obtain hkept | hoperand := exec_fault hexec
    · exact hkept ▸ hs.fault
    · simp [hoperand]

theorem load_keeps_opcodesInRange {ds : List Int} {a b c : Int} {s : State} (hs : OpcodesInRange s) :
    OpcodesInRange (load ds a b c s).2 := by
  by_cases hok : (load ds a b c s).1 = .ok
  · exact opcodesInRange_of_load_ok hok
  · rw [load_status] at hok
    rwa [load_of_not_ok hok]

theorem reinit_keeps_opcodesInRange {a b c : Int} {s : State} (hs : OpcodesInRange s) :
    OpcodesInRange (reinit a b c s).2 := by
  refine hs.of_sameProgram (reinit_sameProgram a b c s) ?_
  unfold reinit
  split
  · simp
  · exact hs.fault

theorem command_keeps_opcodesInRange (cmd : Command) {s : State} (hs : OpcodesInRange s) :
    OpcodesInRange (command cmd s).2 := by
  cases cmd with
  | load ds a b c =>
    unfold command
    split
    · exact load_keeps_opcodesInRange hs
    · exact hs
  | reinit a b c =>
    unfold command
    split
    · exact reinit_keeps_opcodesInRange hs
    · exact hs
  | _ => exact command_keeps (fun _ _ => step_keeps_opcodesInRange) rfl hs

/-- Settles O15: the fault by the decoder's first check, LOAD's answer by its check of the digits, and
the rest by the invariant that every program cell holds a digit, which every LOAD that succeeds sets up. -/
theorem invalidOpcodeUnreachable : Obligations.InvalidOpcodeUnreachable := by
  refine ⟨fun s op k hcan hpair hwide => ?_, fun ds a b c s hbad => ?_, fun ds a b c s cmds hload => ?_⟩
  · exact ⟨raiseFault .invalidOpcode s,
      step_of_decodeCells_error hcan hpair (decodeCells_of_wide_opcode hwide k), raiseFault_fault _ s,
      no_step_of_fault (by simp)⟩
  · obtain ⟨d, hd, hout⟩ := hbad
    refine load_of_not_goodInput fun hgood => ?_
    have hrange := hgood.inRange d hd
    omega
  · exact (session_keeps (fun cmd _ _ => command_keeps_opcodesInRange cmd) (opcodesInRange_of_load_ok hload)).fault

end Sys2Proof.Machine
end

section
/-! SUPPORT. The 6-bit word (30 R61): packing and unpacking the two digits are inverse, and every word is
the word of one instruction. -/

namespace Sys2Proof

theorem encodeWord_decodeWord (w : BitVec 6) : encodeWord (decodeWord w) = w := by
  rw [encodeWord, decodeWord, ofDigits_opDigit, ofDigits_operand,
    BitVec.extractLsb'_append_extractLsb'_eq_extractLsb' (by rfl)]
  exact BitVec.extractLsb'_eq_self

theorem decodeWord_encodeWord (i : Instr) : decodeWord (encodeWord i) = i := by
  rw [encodeWord, decodeWord_append, ofDigits_opDigit_operand]

theorem decodeStream_encode (i : Instr) : decodeStream (encode i) = some [i] := by
  simpa using decodeStream_flatMap_encode [i]

/-- Settles O1: the decoder splits the word where the encoder joined it, and the opcode map is a
bijection of the digits with the eight mnemonics. -/
theorem decodeEncodeAgree : Obligations.DecodeEncodeAgree :=
  ⟨decodeWord_encodeWord, encodeWord_decodeWord, decodeStream_encode⟩

/-- Settles O3: nine fixed words, run through the decoder. -/
theorem sampleWordsDecode : Obligations.SampleWordsDecode := by
  unfold Obligations.SampleWordsDecode
  decide

end Sys2Proof
end

section
/-! SUPPORT. The fetch (40 R82, R83): the step as `exec` of the instruction read at IP, from the two
cells, from the packed word, from the decoded stream and from a placed word. -/

namespace Sys2Proof.Machine

theorem decodeCells_of_wide_operand {op k : Byte} (hop : op.toNat ≤ 7) (hk : 7 < k.toNat) :
    decodeCells op k = .error (.invalidOperand k) := by
  rw [decodeCells, if_neg (by omega), if_pos hk]

/-- Settles O4: the decoder's two checks in their order, and the fault each of them raises. -/
theorem wideCellsFaultInOrder : Obligations.WideCellsFaultInOrder := fun _ _ k hcan hpair =>
  ⟨fun hop => step_of_decodeCells_error hcan hpair (decodeCells_of_wide_opcode hop k),
    fun hop hk => step_of_decodeCells_error hcan hpair (decodeCells_of_wide_operand hop hk)⟩

/-- Settles O5: the fetch of a core that can step is the decoding of the two cells. -/
theorem stepRunsDecodedInstruction : Obligations.StepRunsDecodedInstruction :=
  fun _ _ _ _ => step_of_decodeCells

/-- In a good state every cell below 2·L, listed or not, holds a digit. -/
theorem read_le_of_goodState {s : State} (hs : GoodState s) (addr : Nat) :
    (Memory.read s.prog addr).toNat ≤ 7 := by
  by_cases h : Memory.read s.prog addr = Memory.unlisted
  · rw [h]
    decide
  · exact (hs.cells _ (Memory.mem_of_read h)).2

theorem opcodesInRange_of_goodState {s : State} (hs : GoodState s) : OpcodesInRange s where
  digits cell hcell := by
    obtain ⟨addr, _, rfl⟩ := List.mem_map.1 hcell
    exact read_le_of_goodState hs addr
  fault := hs.opcodeFault

/-- In a good state that can step, the two cells at IP decode and the step runs what they decode to. -/
theorem step_eq_exec_of_goodState {s : State} (hs : GoodState s) (hcan : CanStep s) :
    ∃ i, decodeCells (Memory.read s.prog (2 * s.ip)) (Memory.read s.prog (2 * s.ip + 1)) = .ok i ∧
      step s = exec i s := by
  obtain ⟨_, _, hip⟩ := id hcan
  obtain ⟨i, hi⟩ := (opcodesInRange_of_goodState hs).decodes hip
  exact ⟨i, hi, step_of_decodeCells hcan (readPair_slot hip) hi⟩

theorem readWord6_slot {s : State} {slot : Nat} (h : slot < s.plen) :
    readWord6 s (2 * slot) =
      some ((Memory.read s.prog (2 * slot)).setWidth 3 ++ (Memory.read s.prog (2 * slot + 1)).setWidth 3) := by
  simp only [readWord6, readPair_slot h]

/-- Settles O6: the packed word splits into the digits of the two cells, which are the cells themselves
where memory holds digits. -/
theorem stepRunsPackedWord : Obligations.StepRunsPackedWord := by
  intro s w hs hcan hw
  obtain ⟨i, hi, hstep⟩ := step_eq_exec_of_goodState hs hcan
  obtain ⟨hop, hk⟩ := decodeCells_eq_ok.1 hi
  obtain ⟨_, _, hip⟩ := hcan
  rw [readWord6_slot hip, hop, hk, digit_toByte_toDigit, digit_toByte_toDigit] at hw
  cases hw
  rw [hstep, decodeWord_append, ofDigits_opDigit_operand]

theorem canStep_placeCells (s : State) (op k : Byte) : CanStep (placeCells s op k) :=
  ⟨rfl, rfl, by simp⟩

theorem readPair_placeCells {s : State} (hwf : Memory.wf s.prog = true) (op k : Byte) :
    readPair (placeCells s op k) (2 * s.ip) = some (op, k) := by
  refine readPair_eq_some.2 ⟨?_, ?_, ?_⟩
  · rw [placeCells_plen]
    omega
  · rw [placeCells_prog, Memory.read_write_other (Memory.write_wf hwf) (by omega),
      Memory.read_write_same hwf]
  · rw [placeCells_prog, Memory.read_write_same (Memory.write_wf hwf)]

theorem decodeTableWord_eq_some {nbits w : Nat} {i : Instr} :
    decodeTableWord nbits w = some i ↔
      decodeCells (tableCells nbits w).1 (tableCells nbits w).2 = .ok i := by
  unfold decodeTableWord
  split
  · next j hj => simp [hj]
  · next e he => simp [he]

/-- Settles O7: the placed cells are read back at IP, and the core they are placed in can step. -/
theorem placedWordIsWhatStepRuns : Obligations.PlacedWordIsWhatStepRuns :=
  fun s _ _ _ hwf hi => step_of_decodeCells (canStep_placeCells s _ _) (readPair_placeCells hwf _ _)
    (decodeTableWord_eq_some.1 hi)

/-- A stream of whole pairs of digits decodes (30 R60, R68). -/
theorem exists_decodeStream {cells : List Byte} (heven : cells.length % 2 = 0)
    (hdigits : ∀ cell ∈ cells, cell.toNat ≤ 7) : ∃ is, decodeStream cells = some is := by
  match cells, heven, hdigits with
  | [], _, _ => exact ⟨[], rfl⟩
  | op :: k :: rest, heven, hdigits =>
    obtain ⟨i, hi, _⟩ := decodeCells_of_le (hdigits op (by simp)) (hdigits k (by simp))
    have hrest : rest.length % 2 = 0 := by
      rw [List.length_cons, List.length_cons] at heven
      omega
    obtain ⟨is, his⟩ := exists_decodeStream hrest fun cell hcell => hdigits cell (by simp [hcell])
    exact ⟨i :: is, by simp [decodeStream, hi, his]⟩

/-- Instruction number `n` of a stream stands in its cells number 2n and 2n + 1 (20 R43). -/
theorem getElem?_flatMap_encode {is : List Instr} {n : Nat} {i : Instr} (h : is[n]? = some i) :
    (is.flatMap encode)[2 * n]? = some (i.opDigit.setWidth 8) ∧
      (is.flatMap encode)[2 * n + 1]? = some (i.operand.setWidth 8) := by
  induction is generalizing n with
  | nil => cases h
  | cons j js ih =>
    cases n with
    | zero =>
      cases h
      exact ⟨rfl, rfl⟩
    | succ n => exact ih h

/-- Settles O36: the raw stream of a good state is the encoding of the instructions it decodes to, so the
two cells at IP are the encoding of instruction number IP. -/
theorem stepRunsTheDecodedStream : Obligations.StepRunsTheDecodedStream := by
  intro s hs
  have hlen := rawCells_length s
  obtain ⟨is, his⟩ := exists_decodeStream (by omega) (opcodesInRange_of_goodState hs).digits
  have hraw := eq_flatMap_encode_of_decodeStream his
  refine ⟨hlen, is, his, ?_, fun i hcan hi => ?_⟩
  · rw [hraw, flatMap_encode_length] at hlen
    omega
  · obtain ⟨hop, hk⟩ := getElem?_flatMap_encode hi
    rw [← hraw, ← readCell_eq_rawCells] at hop hk
    exact step_of_decodeCells hcan (by simp [readPair, hop, hk]) (decodeCells_encode i)

end Sys2Proof.Machine
end

section
/-! SUPPORT. The instructions one by one (41, 42, 43): which of them answer a next state, what the
shift-divides, bst and jnz make of the state, and what every instruction leaves unchanged. -/

namespace Sys2Proof.Machine

open Spec

/-- An instruction is illegal exactly when it resolves combo code 7 (30 R67). -/
theorem wellFormed_eq_false_iff {i : Instr} :
    i.wellFormed = false ↔ operandKind i = .combo ∧ i.operand = 7 := by
  cases i <;> simp [Instr.wellFormed, operandKind, Instr.operand]

theorem exec_of_illegal {i : Instr} (h : i.wellFormed = false) (s : State) :
    exec i s = .next (raiseFault .invalidOperand s) := by
  obtain ⟨hkind, hseven⟩ := wellFormed_eq_false_iff.1 h
  exact exec_combo_seven hkind hseven s

theorem exists_withCombo_next {k : Digit} {s : State} {f : Word → Host.Outcome State Fault Refusal}
    (hf : ∀ v, ∃ t, f v = .next t) : ∃ t, withCombo k s f = .next t := by
  by_cases hk : k = 7
  · subst hk
    exact ⟨_, withCombo_seven s f⟩
  · obtain ⟨v, hv⟩ := combo_of_ne (s := s) hk
    rw [withCombo_of_some hv]
    exact hf v

theorem exec_out_of_full {s : State} {k : Digit} (hk : k ≠ 7) (hfull : hasRoom s = false) :
    exec (.out k) s = .fault .outputFull := by
  obtain ⟨v, hv⟩ := combo_of_ne (s := s) hk
  rw [exec, execOut, withCombo_of_some hv, if_neg (by simp [hfull])]

/-- Every instruction answers a next state, but for a legal out that finds OUT_SEQ full (44 R133). -/
theorem exec_next_or_full (i : Instr) (s : State) :
    (∃ t, exec i s = .next t) ∨
      (exec i s = .fault .outputFull ∧ hasRoom s = false ∧ ∃ k, i = .out k) := by
  cases i with
  | bxl | jnz | bxc => exact .inl ⟨_, rfl⟩
  | adv | bst | bdv | cdv => exact .inl (exists_withCombo_next fun _ => ⟨_, rfl⟩)
  | out k =>
    by_cases hroom : hasRoom s = true
    · exact .inl (exists_withCombo_next fun v => ⟨_, if_pos hroom⟩)
    · have hfull : hasRoom s = false := by simpa using hroom
      by_cases hk : k = 7
      · exact .inl ⟨_, exec_of_illegal (i := .out k) (by simp [Instr.wellFormed, hk]) s⟩
      · exact .inr ⟨exec_out_of_full hk hfull, hfull, k, rfl⟩

theorem exists_exec_next {i : Instr} {s : State} (hroom : (∃ k, i = .out k) → hasRoom s = true) :
    ∃ t, exec i s = .next t := by
  obtain hnext | ⟨_, hfull, hout⟩ := exec_next_or_full i s
  · exact hnext
  · rw [hroom hout] at hfull
    cases hfull

theorem nextIp_of_destReg {i : Instr} {r : Reg} (h : destReg i = some r) (s : State) :
    nextIp i s = s.ip + 1 := by
  cases i with
  | jnz => cases h
  | _ => rfl

/-- A legal instruction that answers a next state leaves FAULT, and IP is as 10 R25 says. -/
theorem exec_legal {i : Instr} {s t : State} (hwf : i.wellFormed = true) (h : exec i s = .next t) :
    t.fault = s.fault ∧ t.ip = nextIp i s := by
  obtain ⟨hill, _⟩ | ⟨_, ⟨r, v, hr, rfl⟩ | ⟨k, d, rfl, _, rfl⟩ | ⟨k, rfl, ha, rfl⟩ | ⟨k, rfl, ha, rfl⟩⟩ :=
    exec_next_cases h
  · rw [hwf] at hill
    cases hill
  · simp [nextIp_of_destReg hr]
  · exact ⟨rfl, rfl⟩
  · exact ⟨rfl, (if_pos ha).symm⟩
  · exact ⟨rfl, (if_neg (not_not.2 ha)).symm⟩

/-- An instruction that leaves no fault was legal. -/
theorem wellFormed_of_exec {i : Instr} {s t : State} (h : exec i s = .next t) (ht : t.fault = .noFault) :
    i.wellFormed = true := by
  by_contra hill
  rw [exec_of_illegal (by simpa using hill)] at h
  cases h
  cases ht

theorem exec_params {i : Instr} {s t : State} (h : exec i s = .next t) : t.params = s.params := by
  obtain ⟨_, rfl⟩ | ⟨_, ⟨_, _, _, rfl⟩ | ⟨_, _, _, _, rfl⟩ | ⟨_, _, _, rfl⟩ | ⟨_, _, _, rfl⟩⟩ := exec_next_cases h
  all_goals simp

theorem exec_readReg {i : Instr} {s t : State} (h : exec i s = .next t) {r : Reg} (hr : destReg i ≠ some r) :
    readReg t r = readReg s r := by
  obtain ⟨_, rfl⟩ | ⟨_, ⟨q, v, hq, rfl⟩ | ⟨_, _, _, _, rfl⟩ | ⟨_, _, _, rfl⟩ | ⟨_, _, _, rfl⟩⟩ := exec_next_cases h
  · simp
  · have hne : r ≠ q := by
      rintro rfl
      exact hr hq
    rw [readReg_advance, readReg_writeReg_ne s v hne]
  all_goals simp

/-- Settles O27: an instruction with room answers a next state, and a legal one keeps FAULT. -/
theorem legalInstructionsComplete : Obligations.LegalInstructionsComplete := by
  intro i s hwf hroom
  obtain ⟨t, ht⟩ := exists_exec_next hroom
  exact ⟨t, ht, exec_legal hwf ht⟩

/-- Settles O28: each clause by what an instruction with a next state can have done. -/
theorem execFrame : Obligations.ExecFrame := by
  intro i s t h
  have hsame := exec_sameProgram h
  exact ⟨fun _ => exec_readReg h, exec_outSeq_of_ne_out h, hsame.prog, hsame.plen, hsame.loaded,
    exec_params h, hsame.readCell_eq, exec_fault h⟩

/-- Settles O30: an instruction that leaves no fault is legal, and a legal one goes to its next slot. -/
theorem advanceUnlessTakenJump : Obligations.AdvanceUnlessTakenJump := by
  intro i s t h ht
  obtain ⟨_, hip⟩ := exec_legal (wellFormed_of_exec h ht) h
  exact hip

/-- Settles O31: an illegal instruction raises InvalidOperand, a legal one leaves FAULT as it was. -/
theorem illegalWordsFault : Obligations.IllegalWordsFault := by
  refine fun i s hs => ⟨fun hill _ => exec_of_illegal hill s, fun hwf t h => ?_⟩
  obtain ⟨hfault, _⟩ := exec_legal hwf h
  rw [hfault, hs]

/-- Settles O32: a step that faults took its decode's fault or InvalidOperand, and a core that holds a
fault has no step. -/
theorem faultsArePreciseAndFinal : Obligations.FaultsArePreciseAndFinal := by
  intro s t h ht
  obtain ⟨⟨_, hfault, _⟩, hcases⟩ := step_next_cases h
  refine ⟨hfault, ?_, no_step_of_fault ht⟩
  obtain ⟨_, _, rfl⟩ | ⟨_, _, hexec⟩ := hcases
  · rfl
  · rw [exec_eq_raiseFault hexec hfault ht]
    rfl

theorem hasRoom_eq_false {s : State} :
    hasRoom s = false ↔ ∃ cap, s.params.outCap = some cap ∧ cap ≤ s.outSeq.length := by
  cases hcap : s.params.outCap <;> simp [hasRoom, hcap]

/-- Settles O10: the decoded instruction has a next state or finds OUT_SEQ full, and the invariant bounds
OUT_SEQ by the capacity from above. -/
theorem runningCoreStepsOrIsFull : Obligations.RunningCoreStepsOrIsFull := by
  intro s hs hcan
  obtain ⟨i, _, hstep⟩ := step_eq_exec_of_goodState hs hcan
  rw [hstep]
  obtain hnext | ⟨hfull, hroom, _⟩ := exec_next_or_full i s
  · exact .inl hnext
  · obtain ⟨cap, hcap, hle⟩ := hasRoom_eq_false.1 hroom
    have hexact : cap = s.outSeq.length := le_antisymm hle (hs.outBound cap hcap)
    exact .inr ⟨hfull, by rw [hcap, hexact]⟩

theorem shiftInto_of_combo {s : State} {k : Digit} {v : Word} (h : combo s k = some v) (r : Reg) :
    shiftInto r k s = .next (advance (writeReg s r (shr64 s.a v))) := by
  rw [shiftInto, withCombo_of_some h, readReg_a]

theorem dividesInto_of_shiftInto {r : Reg} {i : Instr} {k : Digit} {s : State}
    (hi : exec i s = shiftInto r k s) (hk : k ≠ 7) : DividesInto r i k s := by
  obtain ⟨v, hv⟩ := combo_of_ne (s := s) hk
  refine ⟨_, hi.trans (shiftInto_of_combo hv r), ?_, writesOnly_advance_writeReg s r _⟩
  rw [readReg_advance, readReg_writeReg_same, shr64_toNat, toNat_of_combo hv]

/-- Settles O18: the three instructions are one operation with three destinations, and `shr64` is floor
division at every count. -/
theorem shiftFamilyDivides : Obligations.ShiftFamilyDivides := fun _ _ hk =>
  ⟨dividesInto_of_shiftInto rfl hk, dividesInto_of_shiftInto rfl hk, dividesInto_of_shiftInto rfl hk⟩

theorem shr64_self (x : Word) : shr64 x x = 0 := by
  apply BitVec.eq_of_toNat_eq
  rw [shr64_toNat, Nat.div_eq_of_lt Nat.lt_two_pow_self]
  rfl

theorem shiftInto_four (r : Reg) (s : State) : shiftInto r 4 s = .next (advance (writeReg s r 0)) := by
  rw [shiftInto_of_combo (v := s.a) rfl, shr64_self]

/-- Settles O19: operand 4 is A itself, and `A < 2 ^ A`. -/
theorem selfShiftGivesZero : Obligations.SelfShiftGivesZero :=
  fun s => ⟨shiftInto_four .a s, shiftInto_four .b s, shiftInto_four .c s⟩

theorem jumpTarget_lt (k : Digit) : jumpTarget k < 4 := by
  rw [jumpTarget]
  omega

theorem exec_jnz_of_ne {s : State} (h : s.a ≠ 0) (k : Digit) :
    exec (.jnz k) s = .next (setIp s (jumpTarget k)) := by
  have hcond : aNonZero s = true := by simpa [aNonZero] using h
  rw [exec, execJnz, if_pos hcond]

theorem exec_jnz_of_eq {s : State} (h : s.a = 0) (k : Digit) : exec (.jnz k) s = .next (advance s) := by
  have hcond : ¬ aNonZero s = true := by simpa [aNonZero] using h
  rw [exec, execJnz, if_neg hcond]

/-- Settles O23: the two outcomes of the test on A, and a target past the end is Halted. -/
theorem jnzBranchesOnA : Obligations.JnzBranchesOnA := by
  refine fun s k => ⟨decodeWord_append 3 k, fun ha => ⟨exec_jnz_of_ne ha k, ?_, by omega, ?_⟩,
    fun ha => exec_jnz_of_eq ha k⟩
  · exact Nat.le_of_lt_succ (jumpTarget_lt k)
  · exact fun hfault hend => runState_eq_halted.2 ⟨hfault, hend⟩

end Sys2Proof.Machine
end

section
/-! SUPPORT. Reads (10 R22): an instruction runs alike on two states that differ in a register it does
not read. -/

namespace Sys2Proof.Machine

open Spec

theorem writeReg_writeReg_same (s : State) (r : Reg) (x v : Word) :
    writeReg (writeReg s r x) r v = writeReg s r v := by
  cases r <;> rfl

theorem writeReg_comm (s : State) {r q : Reg} (h : r ≠ q) (x v : Word) :
    writeReg (writeReg s r x) q v = writeReg (writeReg s q v) r x := by
  cases r <;> cases q <;> simp [writeReg] at h ⊢

theorem advance_writeReg (s : State) (r : Reg) (x : Word) :
    advance (writeReg s r x) = writeReg (advance s) r x := by
  cases r <;> rfl

theorem setIp_writeReg (s : State) (r : Reg) (x : Word) (n : Nat) :
    setIp (writeReg s r x) n = writeReg (setIp s n) r x := by
  cases r <;> rfl

theorem emit_writeReg (s : State) (r : Reg) (x : Word) (d : Digit) :
    emit d (writeReg s r x) = writeReg (emit d s) r x := by
  cases r <;> rfl

theorem raiseFault_writeReg (s : State) (r : Reg) (x : Word) (f : FaultStatus) :
    raiseFault f (writeReg s r x) = writeReg (raiseFault f s) r x := by
  cases r <;> rfl

theorem hasRoom_writeReg (s : State) (r : Reg) (x : Word) : hasRoom (writeReg s r x) = hasRoom s := by
  rw [hasRoom, hasRoom, writeReg_params, writeReg_outSeq]

/-- The effect of an instruction that writes `dst`, on a state with another value in `r`. -/
theorem advance_writeReg_writeReg (s : State) (dst r : Reg) (x v : Word) :
    advance (writeReg (writeReg s r x) dst v) =
      if dst = r then advance (writeReg s dst v) else writeReg (advance (writeReg s dst v)) r x := by
  split_ifs with h
  · rw [h, writeReg_writeReg_same]
  · rw [writeReg_comm s (Ne.symm h), advance_writeReg]

theorem comboNames_of_comboSource {k : Digit} {r : Reg} (h : comboSource k = some (.register r)) :
    comboNames k r = true := by
  revert k
  cases r <;> decide

/-- A combo operand that does not name `r` has the same value whatever `r` holds. -/
theorem combo_writeReg {k : Digit} {r : Reg} (h : comboNames k r = false) (s : State) (x : Word) :
    combo (writeReg s r x) k = combo s k := by
  unfold combo
  rcases hsrc : comboSource k with _ | v | q
  · rfl
  · rfl
  · have hne : q ≠ r := by
      rintro rfl
      rw [comboNames_of_comboSource hsrc] at h
      cases h
    simp only [Option.map_some, sourceValue, readReg_writeReg_ne s x hne]

/-- What the table of 10 R22 promises of a register that it does not list as read by `i`: with another
value in it the outcome is the same but for that register, and the same in it too where `i` writes it. -/
def IgnoresReg (i : Instr) (r : Reg) : Prop :=
  ∀ s t x, exec i s = .next t →
    exec i (writeReg s r x) = .next (if destReg i = some r ∧ i.wellFormed = true then t else writeReg t r x)

/-- An instruction that puts a value made from its combo operand into `dst`, where neither the operand
nor the value depends on `r`. -/
theorem ignoresReg_of_combo {i : Instr} {dst r : Reg} {k : Digit} (g : State → Word → Word)
    (hexec : ∀ u, exec i u = withCombo k u fun v => .next (advance (writeReg u dst (g u v))))
    (hdst : destReg i = some dst) (hwf : i.wellFormed = (k != 7)) (hnames : comboNames k r = false)
    (hg : ∀ u x, g (writeReg u r x) = g u) : IgnoresReg i r := by
  intro s t x h
  rw [hexec] at h ⊢
  obtain ⟨rfl, rfl⟩ | ⟨hk, v, hv, hnext⟩ := withCombo_next h
  · have hill : i.wellFormed = false := hwf
    rw [withCombo_seven, raiseFault_writeReg, if_neg (by simp [hill])]
  · have hlegal : i.wellFormed = true := by simpa [hwf] using hk
    cases hnext
    rw [withCombo_of_some (v := v) (by rw [combo_writeReg hnames, hv]), hg, advance_writeReg_writeReg]
    simp [hdst, hlegal]

/-- An instruction without combo operand that puts a value into `dst`, which does not depend on `r`. -/
theorem ignoresReg_of_write {i : Instr} {dst r : Reg} (g : State → Word)
    (hexec : ∀ u, exec i u = .next (advance (writeReg u dst (g u))))
    (hdst : destReg i = some dst) (hwf : i.wellFormed = true)
    (hg : ∀ u x, g (writeReg u r x) = g u) : IgnoresReg i r := by
  intro s t x h
  rw [hexec] at h ⊢
  cases h
  rw [hg, advance_writeReg_writeReg]
  simp [hdst, hwf]

/-- A shift-divide reads A and its operand alone. -/
theorem ignoresReg_of_shiftInto {i : Instr} {dst r : Reg} {k : Digit}
    (hexec : ∀ u, exec i u = shiftInto dst k u) (hdst : destReg i = some dst)
    (hwf : i.wellFormed = (k != 7)) (hr : (r == .a || comboNames k r) = false) : IgnoresReg i r := by
  obtain ⟨hra, hnames⟩ := Bool.or_eq_false_iff.1 hr
  have hne : r ≠ .a := by simpa using hra
  exact ignoresReg_of_combo (fun u v => shr64 (readReg u .a) v) hexec hdst hwf hnames
    fun u x => by rw [readReg_writeReg_ne u x hne.symm]

theorem out_ignoresReg {k : Digit} {r : Reg} (hnames : comboNames k r = false) : IgnoresReg (.out k) r := by
  intro s t x h
  rw [if_neg (by simp [destReg])]
  obtain ⟨rfl, rfl⟩ | ⟨_, v, hv, hnext⟩ := withCombo_next h
  · rw [← raiseFault_writeReg]
    rfl
  · split at hnext
    · next hroom =>
      cases hnext
      rw [exec_out_of_combo (by rwa [combo_writeReg hnames]) (by rwa [hasRoom_writeReg]), emit_writeReg,
        advance_writeReg]
    · cases hnext

theorem jnz_ignoresReg (k : Digit) {r : Reg} (hr : r ≠ .a) : IgnoresReg (.jnz k) r := by
  intro s t x h
  rw [if_neg (by simp [destReg])]
  have ha : (writeReg s r x).a = s.a := readReg_writeReg_ne s x hr.symm
  by_cases hzero : s.a = 0
  · rw [exec_jnz_of_eq hzero] at h
    cases h
    rw [exec_jnz_of_eq (ha.trans hzero), advance_writeReg]
  · rw [exec_jnz_of_ne hzero] at h
    cases h
    rw [exec_jnz_of_ne (by rwa [ha]), setIp_writeReg]

/-- Each instruction by the one shape its effect has: the operand and the written value are functions of
the registers the table lists. -/
theorem ignoresReg_of_not_readsReg {i : Instr} {r : Reg} (hr : readsReg i r = false) : IgnoresReg i r := by
  cases i with
  | adv k | bdv k | cdv k => exact ignoresReg_of_shiftInto (fun _ => rfl) rfl rfl hr
  | bst k =>
    exact ignoresReg_of_combo (fun _ v => zext64 (lowDigit v)) (fun _ => rfl) rfl rfl hr fun _ _ => rfl
  | bxl k =>
    have hne : r ≠ .b := by simpa [readsReg] using hr
    refine ignoresReg_of_write (fun u => readReg u .b ^^^ zext64 k) (fun _ => rfl) rfl rfl fun u x => ?_
    rw [readReg_writeReg_ne u x hne.symm]
  | bxc k =>
    obtain ⟨hb, hc⟩ : r ≠ .b ∧ r ≠ .c := by simpa [readsReg] using hr
    refine ignoresReg_of_write (fun u => readReg u .b ^^^ readReg u .c) (fun _ => rfl) rfl rfl fun u x => ?_
    rw [readReg_writeReg_ne u x hb.symm, readReg_writeReg_ne u x hc.symm]
  | jnz k => exact jnz_ignoresReg k (by simpa [readsReg] using hr)
  | out k => exact out_ignoresReg hr

/-- Settles O29: every instruction ignores the registers the table does not list for it. -/
theorem unreadRegistersDoNotMatter : Obligations.UnreadRegistersDoNotMatter :=
  fun _ s t _ x hr => ignoresReg_of_not_readsReg hr s t x

theorem exec_bst_of_combo {s : State} {k : Digit} {v : Word} (h : combo s k = some v) :
    exec (.bst k) s = .next (setB (zext64 (lowDigit v)) s) := by
  rw [exec, execBst, withCombo_of_some h]

/-- Settles O21: bst writes the low digit of its combo value; that B matters for operand 5 alone is the
row of bst in the table of reads. -/
theorem bstTakesLowDigit : Obligations.BstTakesLowDigit := by
  refine fun s k => ⟨decodeWord_append 2 k, fun hk => ?_, fun hk => ?_⟩
  · obtain ⟨v, hv⟩ := combo_of_ne (s := s) hk
    have hexec := exec_bst_of_combo hv
    have hb : (setB (zext64 (lowDigit v)) s).b.toNat = comboNat s k % 8 := by
      rw [setB_b, zext64_lowDigit_toNat, toNat_of_combo hv]
    refine ⟨_, hexec, hb, writesOnly_setB _ s, fun hlit => ?_, fun hne x => ⟨_, ?_, rfl⟩, fun hfive => ?_⟩
    · rw [hb, comboNat, if_pos hlit]
      omega
    · have hread : readsReg (.bst k) .b = false := by simpa [readsReg, comboNames] using hne
      rw [ignoresReg_of_not_readsReg hread s _ x hexec, if_pos ⟨rfl, by simpa [Instr.wellFormed] using hk⟩]
    · subst hfive
      exact hb
  · exact ⟨_, exec_of_illegal (by simp [Instr.wellFormed, hk]) s, rfl, rfl⟩

end Sys2Proof.Machine
end

section
/-! SUPPORT. The one-step pseudocode (40 R94) over natural numbers: each machine operation as the
operation on numbers it stands for. -/

namespace Sys2Proof.Machine

open Spec

theorem shr64_eq_ofNat (x v : Word) : shr64 x v = BitVec.ofNat 64 (x.toNat / 2 ^ v.toNat) := by
  rw [← shr64_toNat, BitVec.ofNat_toNat, BitVec.setWidth_eq]

theorem zext64_lowDigit_eq_ofNat (v : Word) : zext64 (lowDigit v) = BitVec.ofNat 64 (v.toNat % 8) := by
  rw [← zext64_lowDigit_toNat, BitVec.ofNat_toNat, BitVec.setWidth_eq]

theorem lowDigit_eq_ofNat (v : Word) : lowDigit v = BitVec.ofNat 3 (v.toNat % 8) := by
  rw [← lowDigit_toNat, BitVec.ofNat_toNat, BitVec.setWidth_eq]

theorem xor_eq_ofNat (x y : Word) : x ^^^ y = BitVec.ofNat 64 (x.toNat ^^^ y.toNat) := by
  rw [← BitVec.toNat_xor, BitVec.ofNat_toNat, BitVec.setWidth_eq]

theorem zext64_toNat (k : Digit) : (zext64 k).toNat = k.toNat := by
  rw [zext64, BitVec.toNat_setWidth]
  omega

theorem digit_toByte_toNat (k : Digit) : (k.setWidth 8).toNat = k.toNat := by
  rw [BitVec.toNat_setWidth]
  omega

/-- The pseudocode's combo value is that of the operand table, as a number. -/
theorem combo_map_toNat (s : State) (k : Digit) :
    (combo s k).map BitVec.toNat =
      if k.toNat ≤ 3 then some k.toNat
      else if k.toNat = 4 then some s.a.toNat
      else if k.toNat = 5 then some s.b.toNat
      else if k.toNat = 6 then some s.c.toNat
      else none := by
  rcases digit_cases k with rfl | rfl | rfl | rfl | rfl | rfl | rfl | rfl <;> rfl

/-- The pseudocode with the digits of `i` at IP, and the combo value of the operand table. -/
theorem exec_eq_pseudoStep {i : Instr} {s : State} (hroom : hasRoom s = true)
    (hop : Memory.read s.prog (2 * s.ip) = i.opDigit.setWidth 8)
    (hk : Memory.read s.prog (2 * s.ip + 1) = i.operand.setWidth 8) :
    exec i s = .next (pseudoStep s) := by
  simp only [pseudoStep, hop, hk, digit_toByte_toNat, ← combo_map_toNat]
  cases i with
  | adv k | bdv k | cdv k =>
    simp only [Instr.operand]
    rcases hv : combo s k with _ | v
    · cases combo_eq_none.1 hv
      rfl
    · exact (shiftInto_of_combo hv _).trans (by rw [shr64_eq_ofNat]; rfl)
  | bst k =>
    simp only [Instr.operand]
    rcases hv : combo s k with _ | v
    · cases combo_eq_none.1 hv
      rfl
    · exact (exec_bst_of_combo hv).trans (by rw [zext64_lowDigit_eq_ofNat]; rfl)
  | out k =>
    simp only [Instr.operand]
    rcases hv : combo s k with _ | v
    · cases combo_eq_none.1 hv
      rfl
    · exact (exec_out_of_combo hv hroom).trans (by rw [lowDigit_eq_ofNat]; rfl)
  | bxl k => exact (exec_bxl k s).trans (by rw [xor_eq_ofNat, zext64_toNat]; rfl)
  | bxc k => exact (exec_bxc k s).trans (by rw [xor_eq_ofNat]; rfl)
  | jnz k =>
    by_cases ha : s.a = 0
    · simp [exec_jnz_of_eq, ha, advance, setIp, Instr.opDigit]
    · have hn : s.a.toNat ≠ 0 := fun h => ha (BitVec.eq_of_toNat_eq h)
      simp [exec_jnz_of_ne ha, hn, setIp, Instr.opDigit, Instr.operand, jumpTarget]

/-- Settles O8: the step runs the instruction at IP, which the pseudocode says over numbers. -/
theorem stepIsThePseudocode : Obligations.StepIsThePseudocode := by
  intro s hs hcan hroom
  obtain ⟨i, hi, hstep⟩ := step_eq_exec_of_goodState hs hcan
  obtain ⟨hop, hk⟩ := decodeCells_eq_ok.1 hi
  rw [hstep, exec_eq_pseudoStep hroom hop hk]

end Sys2Proof.Machine
end

section
/-! SUPPORT. The checks of LOAD (60 R147) and what LOAD and REINIT leave (70 R170, R171). -/

namespace Sys2Proof.Machine

open Spec

/-- The opcodes of the five combo-kind instructions, as the list of the precheck writes them. -/
theorem comboOpcodes_contains {op : Int} :
    [0, 2, 5, 6, 7].contains op = true ↔ op = 0 ∨ op = 2 ∨ op = 5 ∨ op = 6 ∨ op = 7 := by
  simp

/-- The precheck looks at the slots: the pairs of digits at addresses 2n and 2n + 1. -/
theorem hasComboSeven_iff {ds : List Int} :
    hasComboSeven ds = true ↔
      ∃ slot op, ds[2 * slot]? = some op ∧ (op = 0 ∨ op = 2 ∨ op = 5 ∨ op = 6 ∨ op = 7) ∧
        ds[2 * slot + 1]? = some 7 := by
  fun_induction hasComboSeven ds with
  | case1 op k rest ih =>
    rw [Bool.or_eq_true, Bool.and_eq_true, comboOpcodes_contains, beq_iff_eq, ih]
    constructor
    · rintro (⟨hop, rfl⟩ | ⟨slot, hslot⟩)
      · exact ⟨0, op, rfl, hop, rfl⟩
      · exact ⟨slot + 1, hslot⟩
    · rintro ⟨slot, op', hop, hcombo, hk⟩
      cases slot with
      | zero =>
        cases hop
        cases hk
        exact .inl ⟨hcombo, rfl⟩
      | succ slot => exact .inr ⟨slot, op', hop, hcombo, hk⟩
  | case2 ds hshort =>
    refine ⟨nofun, fun ⟨slot, op, _, _, hk⟩ => ?_⟩
    match ds, hshort, hk with
    | [], _, hk => cases hk
    | [_], _, hk => cases hk
    | op :: k :: rest, hshort, _ => exact absurd rfl (hshort op k rest)

/-- LOAD refuses a well-formed input exactly for the precheck (60 R147). -/
theorem loadCheck_eq_invalidOperand {p : Config.Params} {ds : List Int} {a b c : Int} :
    loadCheck p ds a b c = .invalidOperand ↔
      GoodInput p ds a b c ∧ p.precheckAtLoad = true ∧ hasComboSeven ds = true := by
  rw [← loadCheck_ne_malformedInput, ← Bool.and_eq_true]
  unfold loadCheck
  split_ifs with hgood hpre
  · simp [hpre]
  · simp [hpre]
  · simp

/-- Settles O47: the two statuses by the two checks of LOAD, the malformed inputs first. -/
theorem loadRejectsExactly : Obligations.LoadRejectsExactly := by
  intro ds a b c s
  rw [load_status, ← hasComboSeven_iff, loadCheck_eq_invalidOperand, ← loadCheck_ne_malformedInput, not_not]
  exact ⟨Iff.rfl, Iff.rfl⟩

theorem toNat_ofInt_of_register {v : Int} (h : 0 ≤ v ∧ v < 2 ^ 64) : ((BitVec.ofInt 64 v).toNat : Int) = v := by
  rw [BitVec.toNat_ofInt]
  omega

/-- Settles O46: LOAD's effect field by field, and no effect where a check fails. -/
theorem loadSetsTheWholeState : Obligations.LoadSetsTheWholeState := by
  refine fun ds a b c s => ⟨fun h => ?_, fun h => ?_⟩
  · have hgood := goodInput_of_load_ok h
    have heven := hgood.evenLength
    refine ⟨?_, ?_, ?_, ?_, ?_, load_outSeq h, ?_, load_loaded h, ?_, ?_, readCell_eq_rawCells _, ?_⟩
    · rw [load_of_ok h, startRun_a, toNat_ofInt_of_register hgood.regA]
    · rw [load_of_ok h, startRun_b, toNat_ofInt_of_register hgood.regB]
    · rw [load_of_ok h, startRun_c, toNat_ofInt_of_register hgood.regC]
    · rw [load_of_ok h, startRun_ip]
    · rw [load_of_ok h, startRun_plen, setProgram_plen]
      omega
    · rw [load_of_ok h, startRun_fault]
    · rw [load_of_ok h, startRun_params, setProgram_params]
    · rw [rawCells_load h, List.map_map]
      exact (List.map_congr_left fun d hd => toNat_byte_of_digit (hgood.inRange d hd)).trans ds.map_id
    · by_cases hnil : ds = []
      · subst hnil
        rw [if_pos rfl, load_nil_halted h]
      · have hpos := List.length_pos_iff.2 hnil
        rw [if_neg hnil, runState_eq_running, load_of_ok h, startRun_ip, startRun_plen, setProgram_plen]
        exact ⟨rfl, by omega⟩
  · rw [load_status] at h
    rw [load_of_not_ok h]

theorem regOk_iff {v : Int} : regOk v = true ↔ 0 ≤ v ∧ v < 2 ^ 64 := by
  simp [regOk]

theorem reinit_of_regOk {a b c : Int} (h : (regOk a && regOk b && regOk c) = true) (s : State) :
    reinit a b c s = (.ok, startRun a b c s) := if_pos h

theorem reinit_of_not_regOk {a b c : Int} (h : (regOk a && regOk b && regOk c) = false) (s : State) :
    reinit a b c s = (.malformedInput, s) := if_neg (by simp [h])

theorem command_of_unloaded {s : State} {cmd : Command} (hs : s.loaded = false)
    (hcmd : allowedUnloaded cmd = false) : command cmd s = (.refused, s) := by
  simp [command, hs, hcmd]

/-- Settles O48: REINIT's effect field by field, in which of the old state only PROG, L, the LOAD flag and
the parameters occur. -/
theorem reinitStartsFresh : Obligations.ReinitStartsFresh := by
  refine ⟨fun a b c s hl ha hb hc => ?_, fun a b c s hl hbad => ?_, fun v => ?_,
    fun _ _ _ _ hl => command_of_unloaded hl rfl⟩
  · have hregs : (regOk a && regOk b && regOk c) = true := by simp [ha, hb, hc]
    have hcmd : ∀ s', s'.loaded = true →
        command (.reinit a b c) s' = (.loadStatus .ok, startRun a b c s') := fun s' hl' => by
      rw [command_of_loaded hl', perform, reinit_of_regOk hregs]
    refine ⟨_, hcmd s hl, rfl, rfl, toNat_ofInt_of_register (regOk_iff.1 ha),
      toNat_ofInt_of_register (regOk_iff.1 hb), toNat_ofInt_of_register (regOk_iff.1 hc), rfl, rfl, rfl,
      fun s' hl' hprog hplen hparams => ?_⟩
    rw [hcmd s' hl']
    simp only [startRun, hprog, hplen, hparams, hl, hl']
  · rw [command_of_loaded hl, perform, reinit_of_not_regOk hbad]
  · rw [regOk_iff]
    omega

theorem command_load_state (ds : List Int) (a b c : Int) (s : State) :
    (command (.load ds a b c) s).2 = (load ds a b c s).2 := by
  simp [command, allowedUnloaded, perform]

/-- Settles O11: what is not allowed before a LOAD is refused, the step at its fetch; and a LOAD that
fails changes nothing. -/
theorem unloadedCoreRefuses : Obligations.UnloadedCoreRefuses := by
  intro s hl
  refine ⟨?_, command_of_unloaded hl rfl, fun _ => command_of_unloaded hl rfl,
    fun _ => command_of_unloaded hl rfl, fun _ _ _ => command_of_unloaded hl rfl,
    fun _ => command_of_unloaded hl rfl, fun ds a b c h => ?_⟩
  · simp [step, fetchInstr, hl]
  · rw [load_status] at h
    rw [command_load_state, load_of_not_ok h]

end Sys2Proof.Machine
end

section
/-! SUPPORT. The invariant of an instance (10 R26, R28, 44 R133, 60 R142, R147): a step, LOAD and REINIT
keep it, and so does every host operation. -/

namespace Sys2Proof.Machine

open Spec

/-- What a step, LOAD and REINIT keep, every host operation keeps. -/
theorem command_keeps_of_load_reinit {P : State → Prop} (hstep : ∀ s t, P s → step s = .next t → P t)
    (hload : ∀ ds a b c s, P s → P (load ds a b c s).2)
    (hreinit : ∀ a b c s, P s → P (reinit a b c s).2) (cmd : Command) {s : State} (hs : P s) :
    P (command cmd s).2 := by
  cases cmd with
  | load ds a b c =>
    rw [command_load_state]
    exact hload ds a b c s hs
  | reinit a b c =>
    unfold command
    split
    · exact hreinit a b c s hs
    · exact hs
  | _ => exact command_keeps hstep rfl hs

/-- LOAD keeps what it sets up when it succeeds, since it changes nothing when it fails. -/
theorem load_keeps {P : State → Prop} {ds : List Int} {a b c : Int} {s : State}
    (hok : (load ds a b c s).1 = .ok → P (load ds a b c s).2) (hs : P s) : P (load ds a b c s).2 := by
  by_cases h : (load ds a b c s).1 = .ok
  · exact hok h
  · rw [load_status] at h
    rwa [load_of_not_ok h]

/-- REINIT keeps what the start of a new run keeps. -/
theorem reinit_keeps {P : State → Prop} {a b c : Int} {s : State} (hstart : P (startRun a b c s))
    (hs : P s) : P (reinit a b c s).2 := by
  unfold reinit
  split
  · exact hstart
  · exact hs

theorem step_params {s t : State} (h : step s = .next t) : t.params = s.params := by
  obtain ⟨_, ⟨_, _, rfl⟩ | ⟨_, _, hexec⟩⟩ := step_next_cases h
  · rfl
  · exact exec_params hexec

/-- IP moves to the next slot of the program, to the slot past its end or to a slot 0 to 3 (10 R26). -/
theorem step_ip_le {s t : State} (h : step s = .next t) : t.ip ≤ max s.plen 3 := by
  obtain ⟨⟨_, _, hip⟩, ⟨_, _, rfl⟩ | ⟨_, _, hexec⟩⟩ := step_next_cases h
  · rw [raiseFault_ip]
    omega
  · obtain ⟨_, rfl⟩ | ⟨_, ⟨_, _, _, rfl⟩ | ⟨_, _, _, _, rfl⟩ | ⟨k, _, _, rfl⟩ | ⟨_, _, _, rfl⟩⟩ :=
      exec_next_cases hexec
    · rw [raiseFault_ip]
      omega
    · rw [advance_ip, writeReg_ip]
      omega
    · rw [advance_ip, emit_ip]
      omega
    · have := jumpTarget_lt k
      rw [setIp_ip]
      omega
    · rw [advance_ip]
      omega

theorem hasRoom_eq_true {s : State} : hasRoom s = true ↔ ∀ cap ∈ s.params.outCap, s.outSeq.length < cap := by
  cases hcap : s.params.outCap <;> simp [hasRoom, hcap]

/-- Only an out with room makes OUT_SEQ longer, by one digit (44 R133). -/
theorem exec_outSeq_length_le {i : Instr} {s t : State} (h : exec i s = .next t) {cap : Nat}
    (hcap : cap ∈ s.params.outCap) (hlen : s.outSeq.length ≤ cap) : t.outSeq.length ≤ cap := by
  obtain ⟨_, rfl⟩ | ⟨_, ⟨_, _, _, rfl⟩ | ⟨_, d, _, hroom, rfl⟩ | ⟨_, _, _, rfl⟩ | ⟨_, _, _, rfl⟩⟩ :=
      exec_next_cases h
  case inr.inr.inl =>
    rw [advance_outSeq, emit_outSeq, List.length_append, List.length_singleton]
    exact hasRoom_eq_true.1 hroom cap hcap
  all_goals simpa using hlen

theorem step_outSeq_length_le {s t : State} (h : step s = .next t) {cap : Nat}
    (hcap : cap ∈ s.params.outCap) (hlen : s.outSeq.length ≤ cap) : t.outSeq.length ≤ cap := by
  obtain ⟨_, ⟨_, _, rfl⟩ | ⟨_, _, hexec⟩⟩ := step_next_cases h
  · exact hlen
  · exact exec_outSeq_length_le hexec hcap hlen

theorem step_keeps_goodState {s t : State} (hs : GoodState s) (h : step s = .next t) : GoodState t := by
  have hsame := step_sameProgram h
  have hparams := step_params h
  exact {
    canonical := by rw [hsame.prog]; exact hs.canonical
    cells := by rw [hsame.prog, hsame.plen]; exact hs.cells
    ipBound := by rw [hsame.plen]; exact step_ip_le h
    outBound := fun cap hcap => by
      rw [hparams] at hcap
      exact step_outSeq_length_le h hcap (hs.outBound cap hcap)
    lenBound := by rw [hparams, hsame.plen]; exact hs.lenBound
    opcodeFault := (step_keeps_opcodesInRange (opcodesInRange_of_goodState hs) h).fault }

/-- A LOAD that succeeds sets the invariant up from any state. -/
theorem goodState_of_load_ok {ds : List Int} {a b c : Int} {s : State} (h : (load ds a b c s).1 = .ok) :
    GoodState (load ds a b c s).2 := by
  have hgood := goodInput_of_load_ok h
  have heven := hgood.evenLength
  rw [load_of_ok h]
  exact {
    canonical := Memory.ofDigits_wf _
    cells := fun cell hcell => by
      obtain ⟨_, haddr, hbyte⟩ := Memory.mem_ofDigits hcell
      obtain ⟨d, hd, hcell⟩ := List.mem_map.1 hbyte
      have hrange := hgood.inRange d hd
      have hdigit := toNat_byte_of_digit hrange
      rw [List.length_map] at haddr
      rw [startRun_plen, setProgram_plen, ← hcell]
      omega
    ipBound := Nat.zero_le _
    outBound := fun _ _ => Nat.zero_le _
    lenBound := fun m hm => by
      have := hgood.fits m hm
      rw [startRun_plen, setProgram_plen]
      omega
    opcodeFault := by simp }

theorem startRun_keeps_goodState (a b c : Int) {s : State} (hs : GoodState s) :
    GoodState (startRun a b c s) where
  canonical := hs.canonical
  cells := hs.cells
  ipBound := Nat.zero_le _
  outBound _ _ := Nat.zero_le _
  lenBound := hs.lenBound
  opcodeFault := by simp

/-- Settles O13: a step keeps the program and the parameters; IP, OUT_SEQ and FAULT by what an instruction
can do to them. -/
theorem stepKeepsInvariant : Obligations.StepKeepsInvariant := fun _ _ => step_keeps_goodState

/-- Settles O14: a run repeats the step, and LOAD and REINIT set the invariant up again or change
nothing. -/
theorem commandKeepsInvariant : Obligations.CommandKeepsInvariant := fun cmd _ =>
  command_keeps_of_load_reinit (fun _ _ => step_keeps_goodState)
    (fun _ _ _ _ _ => load_keeps goodState_of_load_ok)
    (fun a b c _ hs => reinit_keeps (startRun_keeps_goodState a b c hs) hs) cmd

/-- Settles O12: the values of the reset state, one by one. -/
theorem resetMeetsInvariant : Obligations.ResetMeetsInvariant :=
  ⟨⟨rfl, nofun, Nat.zero_le _, nofun, nofun, nofun⟩, rfl, rfl⟩

end Sys2Proof.Machine
end

section
/-! SUPPORT. Legal programs (30 R67): a core all of whose slots are legal never faults, and LOAD with the
precheck lets no other program in (60 R147). -/

namespace Sys2Proof.Machine

open Spec

theorem allLegal_of_sameProgram {s t : State} (hs : AllLegal s) (hsame : SameProgram s t) : AllLegal t := by
  unfold AllLegal
  rw [hsame.prog, hsame.plen]
  exact hs

theorem step_fault_of_allLegal {s t : State} (hs : OpcodesInRange s) (hlegal : AllLegal s)
    (h : step s = .next t) : t.fault = .noFault := by
  obtain ⟨⟨_, hfault, hip⟩, ⟨e, he, _⟩ | ⟨i, hi, hexec⟩⟩ := step_next_cases h
  · obtain ⟨i, hi⟩ := hs.decodes hip
    cases he.symm.trans hi
  · obtain ⟨hkept, _⟩ := exec_legal (hlegal s.ip hip i hi) hexec
    rw [hkept, hfault]

/-- Settles O17: the step runs a legal instruction of a program it does not write. -/
theorem legalProgramNeverFaults : Obligations.LegalProgramNeverFaults := fun _ _ hs hlegal h =>
  ⟨step_fault_of_allLegal (opcodesInRange_of_goodState hs) hlegal h,
    allLegal_of_sameProgram hlegal (step_sameProgram h)⟩

/-- What keeps a core with the precheck from faulting: it only ever holds legal programs. -/
structure PrecheckedCore (s : State) : Prop where
  precheck : s.params.precheckAtLoad = true
  legal : AllLegal s
  inRange : OpcodesInRange s
  fault : s.fault = .noFault

theorem opDigit_of_combo {i : Instr} (h : operandKind i = .combo) :
    (i.opDigit.toNat : Int) = 0 ∨ (i.opDigit.toNat : Int) = 2 ∨ (i.opDigit.toNat : Int) = 5 ∨
      (i.opDigit.toNat : Int) = 6 ∨ (i.opDigit.toNat : Int) = 7 := by
  cases i with
  | bxl | jnz | bxc => cases h
  | adv | bst | out | bdv | cdv => simp [Instr.opDigit]

/-- The slots of a loaded program hold its digits, decoded or not. -/
theorem digits_of_slot_load {ds : List Int} {a b c : Int} {s : State} (h : (load ds a b c s).1 = .ok)
    {slot : Nat} (hslot : slot < (load ds a b c s).2.plen) {i : Instr}
    (hi : decodeCells (Memory.read (load ds a b c s).2.prog (2 * slot))
      (Memory.read (load ds a b c s).2.prog (2 * slot + 1)) = .ok i) :
    ds[2 * slot]? = some (i.opDigit.toNat : Int) ∧ ds[2 * slot + 1]? = some (i.operand.toNat : Int) := by
  obtain ⟨hop, hk⟩ := decodeCells_eq_ok.1 hi
  have hlen : 2 * slot + 1 < ds.length := by
    rw [load_of_ok h, startRun_plen, setProgram_plen] at hslot
    omega
  obtain ⟨cell, hcell, hdigit, _⟩ := readCell_load h (Nat.lt_of_succ_lt hlen)
  obtain ⟨cell', hcell', hdigit', _⟩ := readCell_load h hlen
  obtain ⟨_, rfl⟩ := readCell_eq_some.1 hcell
  obtain ⟨_, rfl⟩ := readCell_eq_some.1 hcell'
  rw [hop, digit_toByte_toNat] at hdigit
  rw [hk, digit_toByte_toNat] at hdigit'
  exact ⟨hdigit, hdigit'⟩

/-- With the precheck a LOAD that succeeds has put in a legal program: an illegal slot is one that the
precheck refuses. -/
theorem allLegal_of_load_ok {ds : List Int} {a b c : Int} {s : State}
    (hp : s.params.precheckAtLoad = true) (h : (load ds a b c s).1 = .ok) : AllLegal (load ds a b c s).2 := by
  intro slot hslot i hi
  by_contra hill
  obtain ⟨hkind, hseven⟩ := wellFormed_eq_false_iff.1 (by simpa using hill)
  obtain ⟨hop, hk⟩ := digits_of_slot_load h hslot hi
  rw [hseven] at hk
  have hcombo : hasComboSeven ds = true := hasComboSeven_iff.2 ⟨slot, _, hop, opDigit_of_combo hkind, hk⟩
  have hrefused := loadCheck_eq_invalidOperand.2 ⟨goodInput_of_load_ok h, hp, hcombo⟩
  rw [load_status, hrefused] at h
  cases h

theorem precheckedCore_of_load_ok {ds : List Int} {a b c : Int} {s : State}
    (hp : s.params.precheckAtLoad = true) (h : (load ds a b c s).1 = .ok) :
    PrecheckedCore (load ds a b c s).2 where
  precheck := by rwa [load_of_ok h]
  legal := allLegal_of_load_ok hp h
  inRange := opcodesInRange_of_load_ok h
  fault := by rw [load_of_ok h, startRun_fault]

theorem step_keeps_precheckedCore {s t : State} (hs : PrecheckedCore s) (h : step s = .next t) :
    PrecheckedCore t where
  precheck := by rw [step_params h, hs.precheck]
  legal := allLegal_of_sameProgram hs.legal (step_sameProgram h)
  inRange := step_keeps_opcodesInRange hs.inRange h
  fault := step_fault_of_allLegal hs.inRange hs.legal h

theorem startRun_keeps_precheckedCore (a b c : Int) {s : State} (hs : PrecheckedCore s) :
    PrecheckedCore (startRun a b c s) where
  precheck := hs.precheck
  legal := hs.legal
  inRange := hs.inRange.of_sameProgram ⟨rfl, rfl, rfl⟩ (by simp)
  fault := rfl

/-- Settles O16: with the precheck every LOAD that succeeds leaves a legal program, and no operation but
LOAD changes the program. -/
theorem precheckedCoreNeverFaults : Obligations.PrecheckedCoreNeverFaults := by
  intro ds a b c s cmds hp hload
  refine (session_keeps (P := PrecheckedCore) (fun cmd _ _ => ?_) (precheckedCore_of_load_ok hp hload)).fault
  exact command_keeps_of_load_reinit (fun _ _ => step_keeps_precheckedCore)
    (fun _ _ _ _ _ hs => load_keeps (precheckedCore_of_load_ok hs.precheck) hs)
    (fun a b c _ hs => reinit_keeps (startRun_keeps_precheckedCore a b c hs) hs) cmd

end Sys2Proof.Machine
end

section
/-! SUPPORT. Runs (40 R88 to R92): what the two run modes do over the steps, with any bound, and how a
yield and a resumed run fit together. -/

namespace Sys2Proof.Machine

open Spec

theorem stepsTo_sameProgram {n : Nat} {s t : State} (h : stepsTo n s = some t) : SameProgram s t := by
  fun_induction stepsTo n s with
  | case1 s =>
    cases h
    exact .refl _
  | case2 n s u hstep ih => exact (step_sameProgram hstep).trans (ih h)
  | case3 => cases h

theorem stepsTo_succ_of_step {s u : State} (h : step s = .next u) (n : Nat) :
    stepsTo (n + 1) s = stepsTo n u := by
  rw [stepsTo, h]

/-- Settles O43: by induction over the steps, each of which appends its event. -/
theorem outputIsTheEventsInOrder : Obligations.OutputIsTheEventsInOrder := by
  intro n s t h
  fun_induction stepsTo n s with
  | case1 s =>
    cases h
    rw [outEvents, List.append_nil]
  | case2 n s u hstep ih => rw [ih h, step_outSeq hstep, outEvents_of_step hstep, List.append_assoc]
  | case3 => cases h

/-- An operation that is not allowed before a LOAD and is not refused is on a loaded core. -/
theorem loaded_of_command {cmd : Command} {s t : State} {reply : Reply} (h : command cmd s = (reply, t))
    (hreply : reply ≠ .refused) (hcmd : allowedUnloaded cmd = false) : s.loaded = true := by
  by_contra hl
  rw [command_of_unloaded (by simpa using hl) hcmd] at h
  cases h
  exact hreply rfl

theorem fault_of_stepEvent {s t : State} {d : Digit} (h : stepEvent s t = some d) : t.fault = .noFault := by
  by_contra hf
  rw [stepEvent_of_fault hf] at h
  cases h

/-- A yield ends a run of steps of which the last alone has an output event, the digit yielded. -/
theorem runUntilNextOutput_yield {n : Nat} {s t : State} {d : Digit}
    (h : runUntilNextOutput n s = (.yield d, t)) :
    ∃ m, m < n ∧ stepsTo (m + 1) s = some t ∧ t.outSeq = s.outSeq ++ [d] ∧ t.fault = .noFault := by
  fun_induction runUntilNextOutput n s with
  | case4 n s _ u hstep d' hevent =>
    cases h
    have hout := step_outSeq hstep
    rw [hevent] at hout
    exact ⟨0, n.succ_pos, stepsTo_succ_of_step hstep 0, hout, fault_of_stepEvent hevent⟩
  | case5 n s _ u hstep hnone ih =>
    obtain ⟨m, hm, hsteps, hout, hfault⟩ := ih h
    rw [step_outSeq hstep, hnone, Option.toList_none, List.append_nil] at hout
    exact ⟨m + 1, Nat.succ_lt_succ hm, (stepsTo_succ_of_step hstep _).trans hsteps, hout, hfault⟩
  | _ => cases h

/-- NoMoreOutput ends a run of steps to Halted, none of which has an output event. -/
theorem runUntilNextOutput_noMoreOutput {n : Nat} {s t : State}
    (h : runUntilNextOutput n s = (.noMoreOutput, t)) :
    ∃ m, m < n ∧ stepsTo m s = some t ∧ runState t = .halted ∧ t.outSeq = s.outSeq := by
  fun_induction runUntilNextOutput n s with
  | case3 n s hhalted =>
    cases h
    exact ⟨0, n.succ_pos, rfl, hhalted, rfl⟩
  | case5 n s _ u hstep hnone ih =>
    obtain ⟨m, hm, hsteps, hhalted, hout⟩ := ih h
    rw [step_outSeq hstep, hnone, Option.toList_none, List.append_nil] at hout
    exact ⟨m + 1, Nat.succ_lt_succ hm, (stepsTo_succ_of_step hstep _).trans hsteps, hhalted, hout⟩
  | _ => cases h

theorem runUntilNextOutput_of_command {n : Nat} {s t : State} {reply : Reply}
    (h : command (.runUntilNextOutput n) s = (reply, t)) (hreply : reply ≠ .refused) :
    s.loaded = true ∧ runUntilNextOutput n s = (reply, t) := by
  have hl := loaded_of_command h hreply rfl
  rw [command_of_loaded hl, perform] at h
  exact ⟨hl, h⟩

/-- Settles O40: by induction over the turns of the loop, of which every one but the last makes a step
without output event. -/
theorem nextOutputYieldsOneDigit : Obligations.NextOutputYieldsOneDigit := by
  refine ⟨fun n s d t h => ?_, fun n s t h => ?_⟩
  · obtain ⟨_, hrun⟩ := runUntilNextOutput_of_command h nofun
    exact runUntilNextOutput_yield hrun
  · obtain ⟨_, hrun⟩ := runUntilNextOutput_of_command h nofun
    exact runUntilNextOutput_noMoreOutput hrun

/-- Settles O41: the yield left a state that the steps reach, and RUN_TO_HALT runs through it. -/
theorem resumeContinuesTheRun : Obligations.ResumeContinuesTheRun := by
  intro n m s d t reply u hyield hrun _
  obtain ⟨hl, hyield⟩ := runUntilNextOutput_of_command hyield nofun
  obtain ⟨k, _, hsteps, _, _⟩ := runUntilNextOutput_yield hyield
  have hlt : t.loaded = true := (stepsTo_sameProgram hsteps).loaded.trans hl
  rw [command_of_loaded hlt, perform] at hrun
  exact ⟨k + 1 + m, by rw [command_of_loaded hl, perform, runToHalt_add_of_stepsTo hsteps, hrun]⟩

theorem runToHalt_add_of_finished {n : Nat} {s : State} (h : (runToHalt n s).1 ≠ .unfinished) (j : Nat) :
    runToHalt (n + j) s = runToHalt n s := by
  fun_induction runToHalt n s with
  | case1 => exact absurd rfl h
  | case2 n s hrun | case3 n s hrun => simp [Nat.succ_add, runToHalt, hrun]
  | case4 n s _ t hstep ih => rw [Nat.succ_add, runToHalt_of_step hstep, ih h]
  | case5 n s hrun _ hstep | case6 n s hrun _ hstep => simp [Nat.succ_add, runToHalt, hrun, hstep]

theorem runUntilNextOutput_of_no_event {s t : State} (hstep : step s = .next t)
    (hnone : stepEvent s t = none) (n : Nat) : runUntilNextOutput (n + 1) s = runUntilNextOutput n t := by
  simp [runUntilNextOutput, running_of_step_next hstep, hstep, hnone]

theorem runUntilNextOutput_add_of_finished {n : Nat} {s : State}
    (h : (runUntilNextOutput n s).1 ≠ .unfinished) (j : Nat) :
    runUntilNextOutput (n + j) s = runUntilNextOutput n s := by
  fun_induction runUntilNextOutput n s with
  | case1 => exact absurd rfl h
  | case2 n s hrun | case3 n s hrun => simp [Nat.succ_add, runUntilNextOutput, hrun]
  | case4 n s _ t hstep d hevent => rw [Nat.succ_add, runUntilNextOutput_of_event hstep hevent]
  | case5 n s _ t hstep hnone ih => rw [Nat.succ_add, runUntilNextOutput_of_no_event hstep hnone, ih h]
  | case6 n s hrun _ hstep | case7 n s hrun _ hstep =>
    simp [Nat.succ_add, runUntilNextOutput, hrun, hstep]

/-- Settles O38: by induction over the turns of each loop, a turn that answers does not ask for the
bound. -/
theorem boundOnlyDecidesWaiting : Obligations.BoundOnlyDecidesWaiting := by
  intro n n' s hle
  obtain ⟨j, rfl⟩ := Nat.exists_eq_add_of_le hle
  by_cases hl : s.loaded = true
  · simp only [command_of_loaded hl, perform]
    exact ⟨fun h => runToHalt_add_of_finished h j, fun h => runUntilNextOutput_add_of_finished h j⟩
  · have hl : s.loaded = false := by simpa using hl
    exact ⟨fun _ => by rw [command_of_unloaded hl rfl, command_of_unloaded hl rfl],
      fun _ => by rw [command_of_unloaded hl rfl, command_of_unloaded hl rfl]⟩

/-- A step back to the same state without output goes on for ever (40 R92). -/
theorem runs_of_self_step {s : State} (hstep : step s = .next s) (hnone : stepEvent s s = none) (n : Nat) :
    stepsTo n s = some s ∧ runToHalt n s = (.unfinished, s) ∧
      runUntilNextOutput n s = (.unfinished, s) := by
  induction n with
  | zero => exact ⟨rfl, rfl, rfl⟩
  | succ n ih =>
    rw [stepsTo_succ_of_step hstep, runToHalt_of_step hstep, runUntilNextOutput_of_no_event hstep hnone]
    exact ih

/-- Settles O39: the taken jnz puts the IP it already has, so the step leads back to the same state. -/
theorem selfJumpNeverReturns : Obligations.SelfJumpNeverReturns := by
  intro s k hcan hpair ha hip n
  have hjump : setIp s (jumpTarget k) = s := by
    rw [jumpTarget, ← hip]
    rfl
  have hstep : step s = .next s := by
    rw [step_of_decodeCells hcan hpair (decodeCells_encode (.jnz k)), exec_jnz_of_ne ha, hjump]
  have hwas : ¬ wasOut s = true := by
    obtain ⟨haddr, hop, _⟩ := readPair_eq_some.1 hpair
    simp [wasOut, readCell_eq_some.2 ⟨Nat.lt_of_succ_lt haddr, hop⟩]
  obtain ⟨hl, _, _⟩ := hcan
  simp only [command_of_loaded hl, perform]
  exact runs_of_self_step hstep (stepEvent_of_not_out hwas) n

end Sys2Proof.Machine
end

section
/-! SUPPORT. What the host meets on a stuck and on a Faulted core (44 R133, 60 R151), what READ shows it
(70 R177, 10 R31), and that instances are apart (60 R156). -/

namespace Sys2Proof.Machine

open Spec

/-- On a core that is stuck on a full OUT_SEQ neither STEP nor RUN_TO_HALT returns. -/
theorem stuck_of_outputFull {s : State} (hl : s.loaded = true) (hrun : runState s = .running)
    (hstep : step s = .fault .outputFull) :
    command .step s = (.stuck, s) ∧ ∀ n, command (.runToHalt (n + 1)) s = (.stuck, s) := by
  simp [command_of_loaded hl, perform, hostStep, runToHalt, hrun, hstep]

/-- Settles O25: the emission finds no room, so the step at it answers no next state. -/
theorem outputFullIsStuck : Obligations.OutputFullIsStuck := by
  intro s k hk hfull
  have hexec := exec_out_of_full hk hfull
  refine ⟨hexec, fun hcan hpair => ?_⟩
  have hstep := (step_of_decodeCells hcan hpair (decodeCells_encode (.out k))).trans hexec
  obtain ⟨hl, hfault, hip⟩ := hcan
  have hrun := runState_eq_running.2 ⟨hfault, hip⟩
  obtain ⟨hhost, hhalt⟩ := stuck_of_outputFull hl hrun hstep
  exact ⟨hhost, hrun, hhalt⟩

/-- STEP and RUN_TO_HALT return the fault that the step at IP takes (60 R146). -/
theorem fault_of_step {s t : State} (hl : s.loaded = true) (hstep : step s = .next t)
    (hfault : t.fault ≠ .noFault) :
    command .step s = (.fault t.fault, t) ∧ ∀ n, command (.runToHalt (n + 2)) s = (.fault t.fault, t) := by
  refine ⟨?_, fun n => ?_⟩
  · simp [command_of_loaded hl, perform, hostStep, hstep, hfault]
  · rw [command_of_loaded hl, perform, runToHalt_of_step hstep,
      runToHalt_of_faulted (runState_eq_faulted.2 hfault)]

/-- Settles O52: combo code 7 faults before the room in OUT_SEQ is asked for. -/
theorem outSevenFaultsWhenFull : Obligations.OutSevenFaultsWhenFull := by
  refine fun s _ => ⟨rfl, fun hcan hpair => ?_⟩
  have hstep := step_of_decodeCells hcan hpair (decodeCells_encode (.out 7))
  obtain ⟨hl, _, _⟩ := hcan
  exact fault_of_step hl (hstep.trans (exec_of_illegal rfl s)) (by simp)

theorem runUntilNextOutput_of_faulted {s : State} (h : runState s = .faulted) (n : Nat) :
    runUntilNextOutput (n + 1) s = (.fault s.fault, s) := by
  simp [runUntilNextOutput, h]

/-- Settles O53: a Faulted core has no step, so no operation but LOAD and REINIT moves it, and those two
clear FAULT. -/
theorem faultedStaysFaulted : Obligations.FaultedStaysFaulted := by
  intro s hl hfault
  have hfaulted := runState_eq_faulted.2 hfault
  have hno := no_step_of_fault hfault
  refine ⟨hfaulted, hno, ?_, fun n => ⟨?_, ?_⟩, fun _ => session_eq_self_of_no_step hno,
    fun a b c h => ?_, fun ds a b c h => ?_⟩
  · rw [command_of_loaded hl, perform, hostStep, step_of_faulted hl hfaulted]
  · rw [command_of_loaded hl, perform, runToHalt_of_faulted hfaulted]
  · rw [command_of_loaded hl, perform, runUntilNextOutput_of_faulted hfaulted]
  · rw [reinit_of_ok h, startRun_fault]
  · rw [load_of_ok h, startRun_fault]

/-- STATUS as a number: the two codes in their fields (10 R31). -/
theorem statusWord_toNat (s : State) :
    (statusWord s).toNat = (runCode (runState s)).toNat + 4 * (faultCode s.fault).toNat := by
  unfold statusWord
  cases runState s <;> cases s.fault <;> rfl

theorem statusWord_fields (s : State) :
    (statusWord s).extractLsb' 4 4 = 0 ∧ (statusWord s).extractLsb' 0 2 = runCode (runState s) ∧
      (statusWord s).extractLsb' 2 2 = faultCode s.fault := by
  unfold statusWord
  cases runState s <;> cases s.fault <;> decide

theorem runCode_ne_three (r : RunState) : runCode r ≠ 3 := by
  cases r <;> decide

theorem faultCode_ne_three (f : FaultStatus) : faultCode f ≠ 3 := by
  cases f <;> decide

theorem command_read_state (comp : Component) (s : State) : (command (.read comp) s).2 = s := by
  unfold command
  split <;> rfl

/-- Settles O49: STATUS by its fields, READ by the component it names, PROG as the raw cells. -/
theorem statusAndReadsShowTheState : Obligations.StatusAndReadsShowTheState := by
  refine ⟨fun s => ?_, fun s => ?_, fun s v => ?_, fun s comp => command_read_state comp s, fun s hl => ?_⟩
  · rw [statusWord_toNat]
    cases runState s <;> cases s.fault <;> rfl
  · obtain ⟨hhigh, hrun, hfault⟩ := statusWord_fields s
    rw [hrun, hfault]
    exact ⟨hhigh, runCode_ne_three _, faultCode_ne_three _⟩
  · simp [command, allowedUnloaded, perform]
  · simp only [command_read_of_loaded hl]
    exact ⟨rfl, rfl, rfl, rfl, rfl, rfl, rawCells s, rfl, rawCells_length s,
      fun addr => (readCell_eq_rawCells s addr).symm⟩

/-- Settles O50: the operation sets the place of its instance in the list, and no other. -/
theorem instancesAreIndependent : Obligations.InstancesAreIndependent := by
  refine fun n cmd cores => ⟨fun m hm => ?_, fun s hs => ?_⟩
  · unfold commandAt
    split
    · rfl
    · exact List.getElem?_set_ne hm.symm
  · obtain ⟨hlt, rfl⟩ := List.getElem?_eq_some_iff.1 hs
    simp [commandAt, hlt]

end Sys2Proof.Machine
end

section
/-! SUPPORT. The text form of a program (70 R173): each part of the parser inverts the text of the value
it reads, and takes no other text. -/

namespace Sys2Proof.Machine

open Spec

theorem expect_eq_some {fixed text rest : List Char} :
    expect fixed text = some rest ↔ text = fixed ++ rest := by
  fun_induction expect fixed text with
  | case1 text => simp
  | case2 => simp
  | case3 p ps rest' ih => simpa using ih
  | case4 p ps ch rest' hne => simp [Ne.symm hne]

theorem digitChar_toNat {d : Nat} (h : d < 10) : (Nat.digitChar d).toNat = 48 + d := by
  revert d
  decide

/-- The decimal digit characters are those of 0 to 9. -/
theorem charDigit_eq_some {ch : Char} {d : Nat} : charDigit ch = some d ↔ d < 10 ∧ ch = Nat.digitChar d := by
  unfold charDigit
  constructor
  · intro h
    split_ifs at h with hch
    cases h
    refine ⟨by omega, Char.toNat_inj.1 ?_⟩
    rw [digitChar_toNat (by omega)]
    omega
  · rintro ⟨hd, rfl⟩
    rw [digitChar_toNat hd, if_pos (by omega), Nat.add_sub_cancel_left]

theorem charDigit_digitChar {d : Nat} (h : d < 10) : charDigit (Nat.digitChar d) = some d :=
  charDigit_eq_some.2 ⟨h, rfl⟩

theorem exists_digitChar_of_mem_toDigits {n : Nat} {ch : Char} (h : ch ∈ Nat.toDigits 10 n) :
    ∃ d < 10, ch = Nat.digitChar d := by
  have hdigit := Nat.isDigit_of_mem_toDigits (by decide) le_rfl h
  obtain ⟨hlo, hhi⟩ : 48 ≤ ch.toNat ∧ ch.toNat ≤ 57 := Char.isDigit_iff_toNat.1 hdigit
  exact ⟨ch.toNat - 48, charDigit_eq_some.1 (if_pos ⟨hlo, hhi⟩)⟩

theorem digitChar_ne_newline {d : Nat} (h : d < 10) : Nat.digitChar d ≠ '\n' := by
  revert d
  decide

theorem toDigits_ten_inj {m n : Nat} (h : Nat.toDigits 10 m = Nat.toDigits 10 n) : m = n := by
  rw [← Nat.ofDigitChars_ten_toDigits (n := m), h, Nat.ofDigitChars_ten_toDigits]

/-- One more digit at the end of a number's decimal digits. -/
theorem toDigits_append_digitChar {m d : Nat} (hm : 0 < m) (hd : d < 10) :
    Nat.toDigits 10 m ++ [Nat.digitChar d] = Nat.toDigits 10 (10 * m + d) := by
  rw [← Nat.toDigits_append_toDigits (by decide) hm hd, Nat.toDigits_of_lt_base hd]

/-- The decimal digits of a positive number begin with a digit that is not 0. -/
theorem exists_leading_digit {n : Nat} (hn : 0 < n) :
    ∃ d suffix, 0 < d ∧ d < 10 ∧ Nat.toDigits 10 n = Nat.digitChar d :: suffix := by
  induction n using Nat.strongRecOn with
  | ind n ih =>
    by_cases hlt : n < 10
    · exact ⟨n, [], hn, hlt, Nat.toDigits_of_lt_base hlt⟩
    · obtain ⟨d, suffix, hpos, hd, heq⟩ := ih (n / 10) (by omega) (by omega)
      refine ⟨d, suffix ++ [Nat.digitChar (n % 10)], hpos, hd, ?_⟩
      rw [Nat.toDigits_of_base_le (by decide) (by omega), heq, List.cons_append]

/-- What the digits on top of `acc` read is the number whose decimal digits are those of `acc` and then
they. -/
theorem toDigits_of_lineNumber {acc n : Nat} {text rest : List Char} (hacc : 0 < acc)
    (h : lineNumber acc text = some (n, rest)) :
    ∃ suffix, text = suffix ++ '\n' :: rest ∧ Nat.toDigits 10 n = Nat.toDigits 10 acc ++ suffix := by
  fun_induction lineNumber acc text with
  | case1 => cases h
  | case2 acc rest' =>
    cases h
    exact ⟨[], rfl, (List.append_nil _).symm⟩
  | case3 acc ch rest' _ d hd ih =>
    obtain ⟨hlt, rfl⟩ := charDigit_eq_some.1 hd
    obtain ⟨suffix, rfl, hsuffix⟩ := ih (by omega) h
    exact ⟨Nat.digitChar d :: suffix, rfl, by
      rw [hsuffix, ← toDigits_append_digitChar hacc hlt, List.append_assoc, List.singleton_append]⟩
  | case4 => cases h

theorem lineNumber_of_toDigits {acc n : Nat} {suffix : List Char} (hacc : 0 < acc)
    (h : Nat.toDigits 10 n = Nat.toDigits 10 acc ++ suffix) (rest : List Char) :
    lineNumber acc (suffix ++ '\n' :: rest) = some (n, rest) := by
  induction suffix generalizing acc with
  | nil =>
    rw [toDigits_ten_inj (h.trans (List.append_nil _))]
    simp [lineNumber]
  | cons ch suffix ih =>
    obtain ⟨d, hd, rfl⟩ := exists_digitChar_of_mem_toDigits (n := n) (ch := ch) (by simp [h])
    rw [List.cons_append, lineNumber, if_neg (digitChar_ne_newline hd), charDigit_digitChar hd]
    refine ih (by omega) ?_
    rw [h, ← toDigits_append_digitChar hacc hd, List.append_assoc, List.singleton_append]

/-- A number that fills its line is read from its decimal digits, and from no other text. -/
theorem uintLine_eq_some {n : Nat} {text rest : List Char} :
    uintLine text = some (n, rest) ↔ text = Nat.toDigits 10 n ++ '\n' :: rest := by
  constructor
  · fun_cases uintLine text with
    | case2 ch more hch =>
      obtain ⟨_, rfl⟩ := charDigit_eq_some.1 hch
      rintro ⟨⟩
      rfl
    | case4 ch rest' d hd hch =>
      obtain ⟨hlt, rfl⟩ := charDigit_eq_some.1 hch
      intro h
      obtain ⟨suffix, rfl, hsuffix⟩ := toDigits_of_lineNumber (Nat.pos_of_ne_zero hd) h
      rw [hsuffix, Nat.toDigits_of_lt_base hlt]
      rfl
    | _ => exact nofun
  · rintro rfl
    rcases Nat.eq_zero_or_pos n with rfl | hn
    · rfl
    · obtain ⟨d, suffix, hpos, hd, heq⟩ := exists_leading_digit hn
      have hline := lineNumber_of_toDigits hpos (heq.trans (by rw [Nat.toDigits_of_lt_base hd]; rfl)) rest
      rw [heq, List.cons_append, ← hline]
      simp [uintLine, charDigit_digitChar hd, hpos.ne']

theorem registerText_append (name : Char) (n : Nat) (rest : List Char) :
    registerText name n ++ rest =
      ['R', 'e', 'g', 'i', 's', 't', 'e', 'r', ' ', name, ':', ' '] ++
        (Nat.toDigits 10 n ++ '\n' :: rest) := by
  have hfixed : "Register ".toList ++ [name] ++ ": ".toList =
      ['R', 'e', 'g', 'i', 's', 't', 'e', 'r', ' ', name, ':', ' '] := rfl
  unfold registerText
  rw [hfixed, List.append_assoc, List.append_assoc, List.singleton_append]

theorem registerLine_eq_some {name : Char} {n : Nat} {text rest : List Char} :
    registerLine name text = some (n, rest) ↔ text = registerText name n ++ rest := by
  rw [registerText_append, ← expect_eq_some, registerLine]
  split
  · next rest' h => rw [h, uintLine_eq_some, Option.some.injEq]
  · next h => simp [h]

/-- The digits of a program as the text form has them. -/
def digitsText (ds : List Digit) : List Char :=
  List.intercalate [','] (ds.map fun d => Nat.toDigits 10 d.toNat)

theorem toDigits_digit (d : Digit) : Nat.toDigits 10 d.toNat = [Nat.digitChar d.toNat] :=
  Nat.toDigits_of_lt_base (d.isLt.trans (by decide))

theorem digitsText_singleton (d : Digit) : digitsText [d] = [Nat.digitChar d.toNat] := by
  simp [digitsText, toDigits_digit]

theorem digitsText_cons {d : Digit} {ds : List Digit} (h : ds ≠ []) :
    digitsText (d :: ds) = Nat.digitChar d.toNat :: ',' :: digitsText ds := by
  obtain ⟨e, es, rfl⟩ := List.exists_cons_of_ne_nil h
  simp [digitsText, toDigits_digit, List.intercalate]

theorem charDigit_digit (d : Digit) : charDigit (Nat.digitChar d.toNat) = some d.toNat :=
  charDigit_digitChar (d.isLt.trans (by decide))

/-- The digit that a character of the program line stands for. -/
theorem exists_digit_of_charDigit {ch : Char} {n : Nat} (h : charDigit ch = some n) (hn : n ≤ 7) :
    ∃ d : Digit, d.toNat = n ∧ ch = Nat.digitChar d.toNat := by
  have hd : (BitVec.ofNat 3 n).toNat = n := by
    rw [BitVec.toNat_ofNat]
    omega
  exact ⟨BitVec.ofNat 3 n, hd, by rw [hd, (charDigit_eq_some.1 h).2]⟩

theorem digitLine_digitsText {ds : List Digit} (h : ds ≠ []) :
    digitLine (digitsText ds) = some (ds.map fun d => (d.toNat : Int)) := by
  have hle : ∀ d : Digit, d.toNat ≤ 7 := fun d => Nat.le_of_lt_succ d.isLt
  induction ds with
  | nil => exact absurd rfl h
  | cons d ds ih =>
    by_cases hds : ds = []
    · subst hds
      simp [digitsText_singleton, digitLine, charDigit_digit, hle]
    · simp [digitsText_cons hds, digitLine, charDigit_digit, hle, ih hds]

theorem digitsText_of_digitLine {text : List Char} {xs : List Int} (h : digitLine text = some xs) :
    ∃ ds, ds ≠ [] ∧ text = digitsText ds ∧ xs = ds.map fun d => (d.toNat : Int) := by
  fun_induction digitLine text generalizing xs with
  | case2 ch n hch hn =>
    cases h
    obtain ⟨d, rfl, rfl⟩ := exists_digit_of_charDigit hch hn
    exact ⟨[d], nofun, (digitsText_singleton d).symm, rfl⟩
  | case5 ch sep rest n ys hrest hch hok ih =>
    cases h
    obtain ⟨hn, rfl⟩ := hok
    obtain ⟨d, rfl, rfl⟩ := exists_digit_of_charDigit hch hn
    obtain ⟨ds, hds, rfl, rfl⟩ := ih hrest
    exact ⟨d :: ds, nofun, (digitsText_cons hds).symm, rfl⟩
  | _ => cases h

theorem digitLine_eq_some {text : List Char} {xs : List Int} :
    digitLine text = some xs ↔
      ∃ ds, ds ≠ [] ∧ text = digitsText ds ∧ xs = ds.map fun d => (d.toNat : Int) :=
  ⟨digitsText_of_digitLine, fun ⟨_, hds, htext, hxs⟩ => by rw [htext, hxs, digitLine_digitsText hds]⟩

theorem programLine_eq_some {text : List Char} {xs : List Int} :
    programLine text = some xs ↔ ∃ rest, text = "Program: ".toList ++ rest ∧ digitLine rest = some xs := by
  have hfixed : "Program: ".toList = ['P', 'r', 'o', 'g', 'r', 'a', 'm', ':', ' '] := rfl
  simp only [hfixed, ← expect_eq_some]
  rw [programLine]
  split
  · next rest h => simp [h]
  · next h => simp [h]

theorem sourceText_eq (ds : List Digit) (a b c : Nat) :
    sourceText ds a b c =
      registerText 'A' a ++ (registerText 'B' b ++ (registerText 'C' c ++ ("Program: ".toList ++ digitsText ds))) := by
  simp only [sourceText, digitsText, List.append_assoc]

theorem parseText_sourceText {ds : List Digit} (h : ds ≠ []) (a b c : Nat) :
    parseText (sourceText ds a b c) = some (loadArgs ds a b c) := by
  rw [sourceText_eq, parseText, registerLine_eq_some.2 rfl]
  simp only [registerLine_eq_some.2 rfl, programLine_eq_some.2 ⟨_, rfl, digitLine_digitsText h⟩, loadArgs]

/-- The parser inverts the text of its arguments, and takes no other text. -/
theorem parseText_eq_some {text : List Char} {args : LoadArgs} :
    parseText text = some args ↔
      ∃ ds a b c, ds ≠ [] ∧ text = sourceText ds a b c ∧ args = loadArgs ds a b c := by
  constructor
  · fun_cases parseText text with
    | case5 a t1 ha b t2 hb c t3 hc xs hxs =>
      rintro ⟨⟩
      obtain ⟨rest, rfl, hrest⟩ := programLine_eq_some.1 hxs
      obtain ⟨ds, hds, rfl, rfl⟩ := digitLine_eq_some.1 hrest
      cases registerLine_eq_some.1 hc
      cases registerLine_eq_some.1 hb
      cases registerLine_eq_some.1 ha
      exact ⟨ds, a, b, c, hds, (sourceText_eq ds a b c).symm, rfl⟩
    | _ => exact nofun
  · rintro ⟨ds, a, b, c, hds, rfl, rfl⟩
    exact parseText_sourceText hds a b c

/-- Settles O51: the parser's equivalence, of which the bounds on the arguments and what the host loads
are consequences. -/
theorem textParsesToItsArguments : Obligations.TextParsesToItsArguments := by
  refine ⟨fun _ _ => parseText_eq_some, fun text args h => ?_, fun ds a b c s hds => ?_, fun text s hno => ?_⟩
  · obtain ⟨ds, a, b, c, hds, _, rfl⟩ := parseText_eq_some.1 h
    refine ⟨Int.natCast_nonneg a, Int.natCast_nonneg b, Int.natCast_nonneg c, by simpa [loadArgs] using hds,
      fun x hx => ?_⟩
    obtain ⟨d, _, rfl⟩ := List.mem_map.1 hx
    omega
  · simp only [loadText, parseText_sourceText hds, loadArgs]
  · have hnone : parseText text = none := by
      refine Option.eq_none_iff_forall_ne_some.2 fun args h => ?_
      obtain ⟨ds, a, b, c, hds, htext, _⟩ := parseText_eq_some.1 h
      exact hno ds a b c hds htext
    rw [loadText, hnone]

end Sys2Proof.Machine
end
